-- ==== Sys2Proof/Word.lean ====
section
/-! DEFINITION. The widths of the engine (20_memory.md R56). -/

namespace Sys2Proof

/-- A wire byte, a segment byte (R56). -/
abbrev Byte := BitVec 8

/-- A host command word, STATUS, RESULT (R56). -/
abbrev Word := BitVec 16

end Sys2Proof
end

