-- ==== Sys2Proof/Syntax.lean ====
section
/-! DEFINITION. The instructions: one constructor per row of spec/opcode_table.json. -/

namespace Sys2Proof

/-- The six host commands (30_encoding.md R72) and the four kinds of wire byte the byte sequencer sends (R76).
Operands are the values of R73, not the raw fields: `WellFormed.lean` says which ones a word can hold. -/
inductive Instr where
  /-- INIT en, br (42_display.md R151). -/
  | init (en : Bool) (br : Int)
  /-- ENABLE on (R152). -/
  | enable (on : Bool)
  /-- SETBR br (R153). -/
  | setbr (br : Int)
  /-- DIGIT pos, digit (R154). -/
  | digit (pos digit : Nat)
  /-- COLON on (R155). -/
  | colon (on : Bool)
  /-- CLEAR (R156). -/
  | clear
  /-- DATA_CMD_FIXED: the data command byte (30_encoding.md R77). -/
  | dataCmdFixed
  /-- ADDR_SET: the address command byte (R78). -/
  | addrSet (pos : Nat)
  /-- DISP_CTRL: the display-control byte (R79). -/
  | dispCtrl (on : Bool) (br : Nat)
  /-- SEG_DATA: the second byte of an address-set frame (R80). -/
  | segData (seg : Byte)
  deriving DecidableEq, Repr

/-- The pseudo-instructions of 30_encoding.md R86. -/
inductive Pseudo where
  | on
  | off
  | blank (pos : Nat)
  deriving DecidableEq, Repr

/-- R86: "Each expands to exactly one command". -/
def Pseudo.expand : Pseudo → Instr
  | .on => .enable true
  | .off => .enable false
  | .blank pos => .digit pos 10

end Sys2Proof
end

