-- ==== Sys2Proof/WellFormed.lean ====
section
/-! DEFINITION. Which operands an encoding can hold (30_encoding.md R73, R78, R79, R85). -/

namespace Sys2Proof

/-- A brightness operand is an 8-bit two's-complement integer (R73, R85). -/
def brOperandOk (br : Int) : Bool := decide (-128 ≤ br) && decide (br ≤ 127)

/-- "An operand outside the accepted range is an assembly error" (R85); the wire bytes' fields have 2 and 3 bits. -/
def Instr.wf : Instr → Bool
  | .init _ br => brOperandOk br
  | .enable _ => true
  | .setbr br => brOperandOk br
  | .digit pos d => decide (pos < 16) && decide (d < 256)
  | .colon _ => true
  | .clear => true
  | .dataCmdFixed => true
  | .addrSet pos => decide (pos < 4)
  | .dispCtrl _ br => decide (br < 8)
  | .segData _ => true

end Sys2Proof
end

