-- ==== Sys2Proof/Decode.lean ====
section
/-! DEFINITION. The decoder of host command words and wire bytes, and the encoder (30_encoding.md). -/

namespace Sys2Proof

/-- Why a code has no instruction. -/
inductive DecodeReject where
  /-- The word's OP is `0x0` or `0x7`–`0xF` (R74). -/
  | reservedOp
  /-- A bit that R72 marks `must be 0` is 1 (R74). -/
  | reservedField
  /-- The first byte of a frame is of none of the three command classes; the engine never sends one (R76, R81). -/
  | notACommandByte
  deriving DecidableEq, Repr

/-- A code with the place it stands in: the CMD port, the first byte of a frame, or the byte after an ADDR_SET byte.
A segment byte is known by "its position in the frame", "not its value" (R80). -/
inductive Code where
  | command (cw : Word)
  | first (b : Byte)
  | second (b : Byte)
  deriving DecidableEq, Repr

/-- `CW[15:12]` (R71). -/
def fieldOp (cw : Word) : BitVec 4 := cw.extractLsb' 12 4

/-- `CW[11:8]` (R71). -/
def fieldA (cw : Word) : BitVec 4 := cw.extractLsb' 8 4

/-- `CW[7:0]` (R71). -/
def fieldB (cw : Word) : Byte := cw.extractLsb' 0 8

/-- `A[3:1] = 0`: the operand A is one bit (R72). -/
def flagOnly (a : BitVec 4) : Bool := a.extractLsb' 1 3 == 0#3

/-- The instruction, unless a reserved field is not zero (R74). -/
def ifReservedZero (zero : Bool) (i : Instr) : Except DecodeReject Instr :=
  if zero then .ok i else .error .reservedField

/-- "A decoder therefore needs only `CW[15:12]` to select the row, followed by the reserved-bit check" (R75). -/
def decodeCommand (cw : Word) : Except DecodeReject Instr :=
  let a := fieldA cw
  let b := fieldB cw
  let flag := a.getLsbD 0
  match (fieldOp cw).toNat with
  | 1 => ifReservedZero (flagOnly a) (.init flag b.toInt)
  | 2 => ifReservedZero (flagOnly a && b == 0#8) (.enable flag)
  | 3 => ifReservedZero (a == 0#4) (.setbr b.toInt)
  | 4 => .ok (.digit a.toNat b.toNat)
  | 5 => ifReservedZero (flagOnly a && b == 0#8) (.colon flag)
  | 6 => ifReservedZero (a == 0#4 && b == 0#8) .clear
  | _ => .error .reservedOp

/-- The three command classes, known by the patterns of R77, R78 and R79, which are disjoint (R81). -/
def decodeFirst (b : Byte) : Except DecodeReject Instr :=
  if b = 0x44#8 then .ok .dataCmdFixed
  else if b.extractLsb' 2 6 = 0b110000#6 then .ok (.addrSet (b.extractLsb' 0 2).toNat)
  else if b.extractLsb' 4 4 = 0b1000#4 then .ok (.dispCtrl (b.getLsbD 3) (b.extractLsb' 0 3).toNat)
  else .error .notACommandByte

/-- Total on every code (R75). -/
def decode : Code → Except DecodeReject Instr
  | .command cw => decodeCommand cw
  | .first b => decodeFirst b
  | .second b => .ok (.segData b)

/-- The instruction, if there is one. -/
def decoded? (c : Code) : Option Instr :=
  match decode c with
  | .ok i => some i
  | .error _ => none

/-- The place of a byte that stands alone: a byte of a command class opens a frame, and any other byte the engine
sends can only be the segment byte of an address-set frame (R76, R81). DEDUCED: log 8. -/
def placeOfByte (b : Byte) : Code :=
  match decodeFirst b with
  | .ok _ => .first b
  | .error _ => .second b

/-- The instruction of a row of the opcode table: 8 bits for a wire byte, 16 for a host command word. -/
def decodeTableWord (nbits w : Nat) : Option Instr :=
  decoded? (if nbits ≤ 8 then placeOfByte (BitVec.ofNat 8 w) else .command (BitVec.ofNat 16 w))

/-- One match and mask pair of R72. -/
structure CommandRow where
  mnemonic : String
  pattern  : Word
  mask     : Word
  deriving DecidableEq, Repr

/-- The six match and mask pairs of R72. -/
def commandRows : List CommandRow :=
  [⟨"INIT", 0x1000, 0xFE00⟩, ⟨"ENABLE", 0x2000, 0xFEFF⟩, ⟨"SETBR", 0x3000, 0xFF00⟩,
   ⟨"DIGIT", 0x4000, 0xF000⟩, ⟨"COLON", 0x5000, 0xFEFF⟩, ⟨"CLEAR", 0x6000, 0xFFFF⟩]

/-- The word matches the row (R72). -/
def CommandRow.matches (r : CommandRow) (cw : Word) : Bool := cw &&& r.mask == r.pattern

/-- A one-bit operand in `A[0]`, with `A[3:1] = 0` (R72). -/
def flagField (on : Bool) : BitVec 4 := 0#3 ++ BitVec.ofBool on

/-- `CW = {OP, A, B}` (R71). -/
def commandWord (op a : BitVec 4) (b : Byte) : Word := op ++ a ++ b

/-- The words of R72 and R85, and the bytes of R77 to R80. -/
def encode : Instr → Code
  | .init en br => .command (commandWord 0x1 (flagField en) (BitVec.ofInt 8 br))
  | .enable on => .command (commandWord 0x2 (flagField on) 0)
  | .setbr br => .command (commandWord 0x3 0 (BitVec.ofInt 8 br))
  | .digit pos digit => .command (commandWord 0x4 (BitVec.ofNat 4 pos) (BitVec.ofNat 8 digit))
  | .colon on => .command (commandWord 0x5 (flagField on) 0)
  | .clear => .command (commandWord 0x6 0 0)
  | .dataCmdFixed => .first 0x44
  | .addrSet pos => .first (0b110000#6 ++ BitVec.ofNat 2 pos)
  | .dispCtrl on br => .first (0b1000#4 ++ BitVec.ofBool on ++ BitVec.ofNat 3 br)
  | .segData seg => .second seg

/-- The code as a number, numbered as spec/opcode_table.json numbers its bits. -/
def Code.toNat : Code → Nat
  | .command cw => cw.toNat
  | .first b => b.toNat
  | .second b => b.toNat

end Sys2Proof
end

