-- ==== Sys2Proof/Config.lean ====
section
/-! DEFINITION. The implementation parameters of 00_scope.md R7 and the free values. -/

namespace Sys2Proof.Config

/-- `N_POS`: digit positions (R7). -/
def nPos : Nat := 4

/-- `POS_MASK` (R7). -/
def posMask : Byte := 0x03

/-- `COLON_POS`: the position whose byte carries the colon (R7). -/
def colonPos : Nat := 1

/-- `COLON_BIT` as a mask (R7). -/
def colonMask : Byte := 0x80

/-- `BR_MAX`: largest brightness (R7). -/
def brMax : Int := 7

/-- FREE VALUE. The level the bus environment gives the n-th Sample when `State.draws` lists no more levels:
"any bit" (40_transport.md R108, 92_eei_decisions.md D10). DESIGN CHOICE, safe: log 4. -/
opaque freeLevel : Nat → Bool

/-- OPEN. `T_SETTLE`, microseconds (R7, 92_eei_decisions.md D9). Safe: log 9. -/
opaque tSettle : Nat

/-- OPEN. `CMD_PORT_ADDR` (R7, 92_eei_decisions.md D21); no rule of the engine reads it. Safe: log 10. -/
opaque cmdPortAddr : Nat

end Sys2Proof.Config
end

