-- ==== Sys2Proof/Machine/SegTable.lean ====
section
/-! DEFINITION. The digit-to-segment table, `SEG_TABLE` (10_state.md R27, 30_encoding.md R83, R84). -/

namespace Sys2Proof.Machine

/-- Ten entries of eight bits, indexed by the digit (R27). -/
abbrev SegTable := Vector Byte 10

/-- The spec's default table (R83). Entries 3 and 4 are the source's; the other eight are PRESUMED, the spec's own
default "[from general knowledge, not in source]": log 3, unsafe. -/
def SegTable.default : SegTable :=
  #v[0x3F, 0x06, 0x5B, 0x4F, 0x66, 0x6D, 0x7D, 0x07, 0x7F, 0x6F]

/-- What R83 fixes of the table: `SEG_TABLE[3] = 0x4F`, `SEG_TABLE[4] = 0x66`, and bit 7 of every entry is 0. -/
def SegTable.wf (t : SegTable) : Bool :=
  t[3] == 0x4F#8 && t[4] == 0x66#8 && t.toList.all (fun e => !e.getLsbD 7)

/-- "Digits 0–9 map to `SEG_TABLE[digit]`"; 10 and above are blank (R84). -/
def SegTable.glyph (t : SegTable) (digit : Nat) : Byte :=
  if h : digit < 10 then t[digit] else 0x00

end Sys2Proof.Machine
end

