-- ==== Sys2Proof/Machine/State.lean ====
section
/-! DEFINITION. The state of the engine (10_state.md R20), of its micro-sequencer (R34), and of the other agents
(00_scope.md R8); the state after reset (70_reset_and_hazards.md R230). -/

namespace Sys2Proof.Machine

/-- A pin's direction (10_state.md R31). -/
inductive Dir where
  | input
  | output
  deriving DecidableEq, Repr

/-- The pin state of 10_state.md R31: `CLK_DIR`, `CLK_OUT`, `DIO_DIR`, `DIO_OUT`. -/
structure Pins where
  clkDir : Dir
  clkOut : Bool
  dioDir : Dir
  dioOut : Bool
  deriving DecidableEq, Repr

/-- The wire events of 10_state.md R33. -/
inductive WireEvent where
  | configureLines
  | setClk (b : Bool)
  | setDio (b : Bool)
  | dioDir (d : Dir)
  | driveDioLow
  | delay
  | sample (a : Bool)
  deriving DecidableEq, Repr

/-- One micro-step of a transfer: an event, or the poll of the acknowledgement (40_transport.md R107), which emits
`Sample(a)` and, when `a = 1`, is followed by `DriveDioLow`. -/
inductive MicroOp where
  | emit (e : WireEvent)
  | poll
  deriving DecidableEq, Repr

/-- The codes of `FAULT` (60_exceptions.md R201); codes 5–7 are "never raised", so they have no name here. -/
inductive FaultCode where
  | noFault
  | uninit
  | reinit
  | illegal
  | busy
  deriving DecidableEq, Repr

/-- What the host or the platform does in one slot between two steps of the engine (00_scope.md R8, 10_state.md R21,
70_reset_and_hazards.md R234). -/
inductive Input where
  /-- Write a word to the CMD port. -/
  | write (cw : Word)
  /-- Read the STATUS port. -/
  | readStatus
  /-- Read the RESULT port. -/
  | readResult
  /-- Nothing: the engine goes on. -/
  | idle
  /-- The platform resets the engine. -/
  | reset
  deriving DecidableEq, Repr

/-- The machine. -/
structure State where
  /-- `CFG_ON` (R22). -/
  cfgOn     : Bool
  /-- `CFG_BR` (R23). -/
  cfgBr     : BitVec 3
  /-- `SEGCACHE`, the colon latch (R26). -/
  segcache  : Byte
  /-- `SEG_TABLE`, constant (R27). -/
  segTable  : SegTable
  /-- `INIT_DONE` (R30). -/
  initDone  : Bool
  /-- `FAULT` (R30). -/
  fault     : FaultCode
  /-- `RESULT` (R28). -/
  result    : Word
  /-- `BUSY` (R30). -/
  busy      : Bool
  /-- The four pin fields (R31). -/
  pins      : Pins
  /-- The wire events emitted since reset, oldest first (R32). -/
  trace     : List WireEvent
  /-- Micro-sequencer (R34): the bytes the running command has still to send, in wire order. -/
  txQueue   : List Byte
  /-- Micro-sequencer: what is left of the byte now on the wire. -/
  uops      : List MicroOp
  /-- Micro-sequencer: the open frame has its address byte, so its next byte is the segment byte (30_encoding.md R81). -/
  segNext   : Bool
  /-- Micro-sequencer: the acknowledgement bits the running command has so far, in wire order (00_scope.md R11). -/
  acks      : List Bool
  /-- The coming moves of the host and the platform, one a slot. -/
  inputs    : List Input
  /-- The values the host has read from its ports, oldest first (R21). -/
  reads     : List Word
  /-- The levels the bus environment gives the coming Samples (00_scope.md R9). -/
  draws     : List Bool
  /-- How many Samples were taken: indexes the free value `Config.freeLevel` once `draws` is empty. -/
  drawCount : Nat
  deriving DecidableEq, Repr

/-- After reset (R230). `SEGCACHE`, `INIT_DONE`, `FAULT`, `RESULT`, `BUSY` and the trace as R230 says. DESIGN CHOICE,
unsafe: `CFG_ON`, `CFG_BR` (log 1) and the pins (log 2), which R230 leaves unspecified. DESIGN CHOICE: the model's own
fields (log 4, 5, 6). PRESUMED: the table (log 3). -/
def State.reset : State where
  cfgOn     := false
  cfgBr     := 0
  segcache  := 0xFF
  segTable  := SegTable.default
  initDone  := false
  fault     := .noFault
  result    := 0x0000
  busy      := false
  pins      := { clkDir := .input, clkOut := false, dioDir := .input, dioOut := false }
  trace     := []
  txQueue   := []
  uops      := []
  segNext   := false
  acks      := []
  inputs    := []
  reads     := []
  draws     := []
  drawCount := 0

/-- The machine stops. -/
inductive Fault where
  /-- `FAULT ≠ 0`: "the model has no engine step" (60_exceptions.md R204). Raised by every instruction and by the
  engine's own slot in a halted state. Safe: it is the spec's own stop. -/
  | halted
  deriving DecidableEq, Repr

/-- No meaning. -/
inductive Refusal where
  /-- Raised by an arm of `exec` whose instruction has no meaning yet. Safe. -/
  | notModelled (mnemonic : String)
  /-- Raised by the byte sequencer when the next byte of a frame is of no command class: the engine "emits exactly
  four kinds of wire byte" (30_encoding.md R76), so no command puts one there. Safe. -/
  | notAWireByte
  deriving DecidableEq, Repr

end Sys2Proof.Machine
end

