-- ==== Sys2Proof/Machine/Operands.lean ====
section
/-! DEFINITION. Operand forms: the clamp, the position mask, the wire bytes built from registers and operands. -/

namespace Sys2Proof.Machine

/-- `clamp(v, lo, hi) = min(max(v, lo), hi)` on integers (00_scope.md R10). -/
def clamp (v lo hi : Int) : Int := min (max v lo) hi

/-- `b3 <- clamp(br, 0, BR_MAX)`, three bits (41_protocol.md R131). -/
def clampBr (br : Int) : BitVec 3 := BitVec.ofNat 3 (clamp br 0 Config.brMax).toNat

/-- `0x44`, the data command with fixed address (30_encoding.md R77). -/
def dataCmdByte : Byte := 0x40 ||| 0x04

/-- `0xC0 | (pos & 0x03)` (20_memory.md R52, 30_encoding.md R78). -/
def addrByte (pos : Nat) : Byte := 0xC0 ||| (BitVec.ofNat 8 pos &&& Config.posMask)

/-- `0x80 | (on << 3) | br` (30_encoding.md R79). -/
def dispCtrlByte (on : Bool) (br : BitVec 3) : Byte :=
  0x80 ||| ((BitVec.ofBool on).setWidth 8 <<< 3) ||| br.setWidth 8

/-- The level of CLK: `CLK_OUT` when it is an output (10_state.md R31); none while the engine does not drive it (R231). -/
def Pins.clkLevel (p : Pins) : Option Bool :=
  match p.clkDir with
  | .output => some p.clkOut
  | .input => none

/-- The level the engine gives DIO: `DIO_OUT` when it is an output; none while the bus environment decides it (R31). -/
def Pins.dioLevel (p : Pins) : Option Bool :=
  match p.dioDir with
  | .output => some p.dioOut
  | .input => none

/-- The idle line state of 10_state.md R36: both pins outputs, both high. -/
def Pins.idle : Pins := { clkDir := .output, clkOut := true, dioDir := .output, dioOut := true }

end Sys2Proof.Machine
end

