-- ==== Sys2Proof/Machine/Flags.lean ====
section
/-! DEFINITION. The flags of 10_state.md R35: the acknowledgement vector in RESULT, the colon bit, and the STATUS view. -/

namespace Sys2Proof.Machine

/-- The bits as a number, the first in bit 0 (42_display.md R150). -/
def bitsToNat : List Bool → Nat
  | [] => 0
  | b :: bs => b.toNat + 2 * bitsToNat bs

/-- `RESULT <- {zext_4(len(acks)), zext_12(acks as bits, acks[0] in bit 0)}` (42_display.md R150, 10_state.md R28). -/
def packResult (acks : List Bool) : Word :=
  BitVec.ofNat 4 acks.length ++ BitVec.ofNat 12 (bitsToNat acks)

/-- `on ? (SEGCACHE | 0x80) : (SEGCACHE & 0x7F)` (42_display.md R155). -/
def withColon (on : Bool) (cache : Byte) : Byte :=
  if on then cache ||| Config.colonMask else cache &&& ~~~Config.colonMask

/-- `seg | (SEGCACHE & 0x80)` (42_display.md R154). -/
def mergeColon (seg cache : Byte) : Byte := seg ||| (cache &&& Config.colonMask)

/-- The code in `FAULT` (60_exceptions.md R201). -/
def FaultCode.code : FaultCode → BitVec 3
  | .noFault => 0
  | .uninit => 1
  | .reinit => 2
  | .illegal => 3
  | .busy => 4

/-- The STATUS view (10_state.md R29): `{SEGCACHE, FAULT, INIT_DONE, ON, BR}`, with ON and BR 0 before INIT. -/
def State.status (s : State) : Word :=
  s.segcache ++ s.fault.code ++ BitVec.ofBool s.initDone ++ BitVec.ofBool (s.initDone && s.cfgOn)
    ++ (if s.initDone then s.cfgBr else 0#3)

end Sys2Proof.Machine
end

