-- ==== Sys2Proof/Machine/Ops.lean ====
section
/-! DEFINITION. The named operations over the state: emitting events, the bit-level transport (40_transport.md), the
command protocol (41_protocol.md), the command envelope (42_display.md R150), taking a fault (60_exceptions.md R202)
and reset (70_reset_and_hazards.md R230). -/

namespace Sys2Proof.Machine

/-! ### Events (10_state.md R33) -/

/-- An event's effect on the pins, by the table of R33. -/
def Pins.apply (p : Pins) : WireEvent → Pins
  | .configureLines => { clkDir := .output, clkOut := true, dioDir := .output, dioOut := true }
  | .setClk b => { p with clkOut := b }
  | .setDio b => { p with dioOut := b }
  | .dioDir d => { p with dioDir := d }
  | .driveDioLow => { p with dioDir := .output, dioOut := false }
  | .delay => p
  | .sample _ => p

/-- The events' effects, in order. -/
def Pins.applyAll (p : Pins) (es : List WireEvent) : Pins := es.foldl Pins.apply p

/-- `emit(e)`: append to the trace and apply the effect on the lines (00_scope.md R11). -/
def emit (e : WireEvent) (s : State) : State :=
  { s with pins := s.pins.apply e, trace := s.trace ++ [e] }

/-- The events of a step list, in order. -/
def emitAll : List WireEvent → State → State
  | [], s => s
  | e :: es, s => emitAll es (emit e s)

/-- The next bus-environment draw: "any bit" (40_transport.md R108). A free value past the end of `draws`: log 4. -/
def drawDio (s : State) : Bool :=
  match s.draws with
  | a :: _ => a
  | [] => Config.freeLevel s.drawCount

/-- `a <- SampleDIO()` emits `Sample(a)` (00_scope.md R11); `a` joins the acknowledgement list that XFER returns (R108). -/
def sampleDio (s : State) : State :=
  let a := drawDio s
  { emit (.sample a) s with draws := s.draws.tail, drawCount := s.drawCount + 1, acks := s.acks ++ [a] }

/-! ### Bit-level transport (40_transport.md) -/

/-- The events of START (R102). -/
def startEvents : List WireEvent := [.setDio true, .setClk true, .delay, .setDio false]

/-- The events of STOP (R104). -/
def stopEvents : List WireEvent :=
  [.setClk false, .delay, .setDio false, .delay, .setClk true, .delay, .setDio true]

/-- The five events of one data clock (R106). -/
def bitEvents (b : Bool) : List WireEvent := [.setClk false, .delay, .setDio b, .setClk true, .delay]

/-- The bits of a byte in wire order, "least significant bit first" (20_memory.md R53). -/
def wireBits (v : Byte) : List Bool := (List.range 8).map v.getLsbD

/-- The data phase of XFER: the byte sequencer (R106). -/
def dataEvents (v : Byte) : List WireEvent := (wireBits v).flatMap bitEvents

/-- The acknowledgement phase of XFER up to the sample (R107). -/
def ackOpenEvents : List WireEvent := [.setClk false, .dioDir .input, .setDio true, .delay]

/-- The acknowledgement phase of XFER after the conditional drive-low (R107). -/
def ackCloseEvents : List WireEvent :=
  [.delay, .setClk true, .delay, .setClk false, .delay, .dioDir .output]

/-- `START()` (R102). -/
def start (s : State) : State := emitAll startEvents s

/-- `STOP()` (R104). -/
def stop (s : State) : State := emitAll stopEvents s

/-- The acknowledgement poller (R107): sample, and on a 1 "actively drives the data line low". -/
def pollAck (s : State) : State :=
  if drawDio s then emit .driveDioLow (sampleDio s) else sampleDio s

/-- `XFER(v)` (R106, R107). The bit it returns is the one `sampleDio` adds to `acks`. -/
def xfer (v : Byte) (s : State) : State :=
  emitAll ackCloseEvents (pollAck (emitAll (dataEvents v ++ ackOpenEvents) s))

/-! ### Command and addressing protocol (41_protocol.md) -/

/-- `SEND_CMD(b)` (R130). -/
def sendCmd (b : Byte) (s : State) : State := stop (xfer b (start s))

/-- `SEND_CFG(en, br)` (R131): clamp, write both fields, send the display-control byte. -/
def sendCfg (en : Bool) (br : Int) (s : State) : State :=
  let b3 := clampBr br
  sendCmd (dispCtrlByte en b3) { s with cfgOn := en, cfgBr := b3 }

/-- `WRITE_SEG(pos, seg)` (R133). -/
def writeSeg (pos : Nat) (seg : Byte) (s : State) : State :=
  stop (xfer seg (xfer (addrByte pos) (start (sendCmd dataCmdByte s))))

/-! ### Faults and the command envelope -/

/-- `raise Fault(code)`: "sets `FAULT <- code`, and the faulting command then has no other effect" (60_exceptions.md
R202). A running command, when `F_BUSY` is raised, is left frozen: a halted engine makes no step (R204). There is no
handler, so there is no return beside it; only reset clears FAULT. -/
def raise (code : FaultCode) (s : State) : State := { s with fault := code }

/-- What the checks of 42_display.md R150 decide. -/
inductive Gate where
  | halted
  | raises (code : FaultCode)
  | accepts
  deriving DecidableEq, Repr

/-- The checks that stand before decoding: halted, then `F_BUSY` (R150, 60_exceptions.md R203). -/
def portGate (s : State) : Gate :=
  if s.fault ≠ .noFault then .halted
  else if s.busy then .raises .busy
  else .accepts

/-- All checks of R150 on a legal command, in their order. -/
def commandGate (isInit : Bool) (s : State) : Gate :=
  match portGate s with
  | .accepts =>
    if !isInit && !s.initDone then .raises .uninit
    else if isInit && s.initDone then .raises .reinit
    else .accepts
  | g => g

/-- The outcome of a command under the checks: `accepted` is what happens when all of them pass. -/
def Gate.run (g : Gate) (s accepted : State) : Host.Outcome State Fault Refusal :=
  match g with
  | .halted => .fault .halted
  | .raises code => .next (raise code s)
  | .accepts => .next accepted

/-- `BUSY <- 1` (R150); the command has no acknowledgement bits yet. -/
def accept (s : State) : State := { s with busy := true, acks := [] }

/-- `RESULT <- …; BUSY <- 0` (R150). -/
def complete (s : State) : State :=
  { s with result := packResult s.acks, busy := false, acks := [] }

/-- The command envelope (R150) around a command's body. -/
def hostCommand (isInit : Bool) (body : State → State) (s : State) : Host.Outcome State Fault Refusal :=
  (commandGate isInit s).run s (complete (body (accept s)))

/-- An illegal word (30_encoding.md R74) under the checks of R150: after halted and `F_BUSY`, before the others. -/
def illegalWord (s : State) : Host.Outcome State Fault Refusal :=
  (portGate s).run s (raise .illegal s)

/-- A byte of the running command: its command's checks "have already passed" (40_transport.md R100); a halted engine
makes no step (60_exceptions.md R204). -/
def sequencerStep (body : State → State) (s : State) : Host.Outcome State Fault Refusal :=
  if s.fault ≠ .noFault then .fault .halted else .next (body s)

/-! ### Reset (70_reset_and_hazards.md) -/

/-- The engine's state takes the values of R230, "and the trace keeps nothing of the command" (R234). The table is
constant (10_state.md R27); the other agents' side goes on. -/
def platformReset (s : State) : State :=
  { State.reset with
    segTable := s.segTable, inputs := s.inputs, reads := s.reads, draws := s.draws, drawCount := s.drawCount }

end Sys2Proof.Machine
end

