-- ==== Sys2Proof/Machine/Configure.lean ====
section
/-! DEFINITION. The display-configuration commands: INIT, ENABLE, SETBR (42_display.md R151–R153). -/

namespace Sys2Proof.Machine

/-- INIT en, br (R151). -/
def execInit (en : Bool) (br : Int) (s : State) : Host.Outcome State Fault Refusal :=
  hostCommand true (fun s => sendCfg en br { emit .configureLines s with initDone := true }) s

/-- ENABLE on (R152): the stored brightness is preserved. -/
def execEnable (on : Bool) (s : State) : Host.Outcome State Fault Refusal :=
  hostCommand false (fun s => sendCfg on s.cfgBr.toNat s) s

/-- SETBR br (R153): the stored on/off bit is preserved; "SEND_CFG clamps again". -/
def execSetbr (br : Int) (s : State) : Host.Outcome State Fault Refusal :=
  hostCommand false (fun s => sendCfg s.cfgOn (clamp br 0 Config.brMax) s) s

end Sys2Proof.Machine
end

