-- ==== Sys2Proof/Machine/Display.lean ====
section
/-! DEFINITION. The segment commands: DIGIT, COLON, CLEAR (42_display.md R154–R156). -/

namespace Sys2Proof.Machine

/-- The byte DIGIT sends (R154): at the raw position `COLON_POS` the glyph with the cached colon, else the glyph. -/
def digitByte (pos digit : Nat) (s : State) : Byte :=
  let seg := s.segTable.glyph digit
  if pos = Config.colonPos then mergeColon seg s.segcache else seg

/-- SEGCACHE after DIGIT: the byte sent, only at the raw position `COLON_POS` (R154). -/
def digitCache (pos digit : Nat) (s : State) : Byte :=
  if pos = Config.colonPos then digitByte pos digit s else s.segcache

/-- DIGIT pos, digit (R154). -/
def execDigit (pos digit : Nat) (s : State) : Host.Outcome State Fault Refusal :=
  hostCommand false
    (fun s => writeSeg pos (digitByte pos digit s) { s with segcache := digitCache pos digit s }) s

/-- COLON on (R155). -/
def execColon (on : Bool) (s : State) : Host.Outcome State Fault Refusal :=
  hostCommand false
    (fun s =>
      let cache := withColon on s.segcache
      writeSeg Config.colonPos cache { s with segcache := cache }) s

/-- `WRITE_SEG(p, 0x00)` for each position of the list, in order (R156). -/
def blankAll : List Nat → State → State
  | [], s => s
  | p :: ps, s => blankAll ps (writeSeg p 0x00 s)

/-- CLEAR (R156): positions 0 to `N_POS - 1`, ascending; SEGCACHE is not written. -/
def execClear (s : State) : Host.Outcome State Fault Refusal :=
  hostCommand false (blankAll (List.range Config.nPos)) s

end Sys2Proof.Machine
end

