-- ==== Sys2Proof/Machine/Wire.lean ====
section
/-! DEFINITION. The four kinds of wire byte (30_encoding.md R76–R80) as instructions of the byte sequencer: each is
the stretch of its frame that sends it (40_transport.md R111). DEDUCED: log 7. -/

namespace Sys2Proof.Machine

/-- DATA_CMD_FIXED: "WRITE_SEG, first frame" (R76, R77): START, XFER, STOP. -/
def execDataCmdFixed (s : State) : Host.Outcome State Fault Refusal :=
  sequencerStep (sendCmd dataCmdByte) s

/-- ADDR_SET pos: "first byte of second frame" (R76, R78): START, XFER; the frame stays open for its segment byte. -/
def execAddrSet (pos : Nat) (s : State) : Host.Outcome State Fault Refusal :=
  sequencerStep (fun s => { xfer (addrByte pos) (start s) with segNext := true }) s

/-- DISP_CTRL on, br: emitted by "SEND_CFG through SEND_CMD" (R76, R79), so CFG_ON and CFG_BR hold what it carries
(41_protocol.md R131, R132). -/
def execDispCtrl (on : Bool) (br : Nat) (s : State) : Host.Outcome State Fault Refusal :=
  sequencerStep (sendCfg on br) s

/-- SEG_DATA seg: "second byte of second frame" (R76, R80): XFER, STOP. -/
def execSegData (seg : Byte) (s : State) : Host.Outcome State Fault Refusal :=
  sequencerStep (fun s => { stop (xfer seg s) with segNext := false }) s

end Sys2Proof.Machine
end

