-- ==== Sys2Proof/Machine/Dispatch.lean ====
section
/-! DEFINITION. One arm per constructor of Instr. -/

namespace Sys2Proof.Machine

def exec (i : Instr) (s : State) : Host.Outcome State Fault Refusal :=
  match i with
  -- host commands
  | .init en br => Sys2Proof.Machine.execInit en br s
  | .enable on => Sys2Proof.Machine.execEnable on s
  | .setbr br => Sys2Proof.Machine.execSetbr br s
  | .digit pos digit => Sys2Proof.Machine.execDigit pos digit s
  | .colon on => Sys2Proof.Machine.execColon on s
  | .clear => Sys2Proof.Machine.execClear s
  -- wire bytes of the byte sequencer
  | .dataCmdFixed => Sys2Proof.Machine.execDataCmdFixed s
  | .addrSet pos => Sys2Proof.Machine.execAddrSet pos s
  | .dispCtrl on br => Sys2Proof.Machine.execDispCtrl on br s
  | .segData seg => Sys2Proof.Machine.execSegData seg s

end Sys2Proof.Machine
end

