-- ==== Sys2Proof/Machine/Ports.lean ====
section
/-! DEFINITION. The engine's ports and its own slot: what one step of the atomic model (00_scope.md R9) does with the
next move of the host or the platform. -/

namespace Sys2Proof.Machine

/-- The host writes `cw` to the CMD port: a legal word runs its command, an illegal one raises `F_ILLEGAL` (42_display.md
R150, 30_encoding.md R74). -/
def writeCmd (cw : Word) (s : State) : Host.Outcome State Fault Refusal :=
  match decodeCommand cw with
  | .ok i => exec i s
  | .error _ => illegalWord s

/-- The place of the next byte of the running command (30_encoding.md R81). -/
def nextCode (s : State) (b : Byte) : Code := if s.segNext then .second b else .first b

/-- One micro-operation (40_transport.md R107). -/
def runOp : MicroOp → State → State
  | .emit e, s => emit e s
  | .poll, s => pollAck s

/-- Micro-operations, in order. -/
def runOps : List MicroOp → State → State
  | [], s => s
  | op :: ops, s => runOps ops (runOp op s)

/-- The byte sequencer sends the next byte of the running command. -/
def sendByte (b : Byte) (s : State) : Host.Outcome State Fault Refusal :=
  match decode (nextCode s b) with
  | .ok i => exec i s
  | .error _ => .refused .notAWireByte

/-- The engine's own slot. Halted: no step (60_exceptions.md R204). Idle: nothing happens. In a command (which only the
finer model of 00_scope.md R9 shows): the rest of the byte on the wire, the next byte, or the command's completion. -/
def engineSlot (s : State) : Host.Outcome State Fault Refusal :=
  if s.fault ≠ .noFault then .fault .halted
  else if !s.busy then .next s
  else
    match s.uops, s.txQueue with
    | op :: ops, _ => .next (runOps (op :: ops) { s with uops := [] })
    | [], b :: bs => sendByte b { s with txQueue := bs }
    | [], [] => .next (complete s)

/-- A slot in which the host does nothing: a halted engine's wires "keep their levels" (R204). -/
def idleSlot (s : State) : Host.Outcome State Fault Refusal :=
  if s.fault ≠ .noFault then .next s else engineSlot s

/-- The host reads a port: no side effect on the engine, in any state (42_display.md R157). -/
def readPort (v : Word) (s : State) : Host.Outcome State Fault Refusal :=
  .next { s with reads := s.reads ++ [v] }

/-- One move of the host or the platform; `write` and `idleMove` are the granularity of the model. -/
def takeInput (write : Word → State → Host.Outcome State Fault Refusal)
    (idleMove : State → Host.Outcome State Fault Refusal) (m : Input) (s : State) : Host.Outcome State Fault Refusal :=
  match m with
  | .write cw => write cw s
  | .readStatus => readPort s.status s
  | .readResult => readPort s.result s
  | .idle => idleMove s
  | .reset => .next (platformReset s)

/-- One slot: the next input, or, when the host has nothing more to do, the engine's own slot. -/
def runSlot (s : State) : Host.Outcome State Fault Refusal :=
  match s.inputs with
  | [] => engineSlot s
  | m :: ms => takeInput writeCmd idleSlot m { s with inputs := ms }

end Sys2Proof.Machine
end

