-- ==== Sys2Proof/Machine/Step.lean ====
section
/-! DEFINITION. The step of the atomic model, and the placing of one instruction. -/

namespace Sys2Proof.Machine

/-- One step: one slot of the host and the platform, each command word run to completion (00_scope.md R9). -/
def step (s : State) : Host.Outcome State Fault Refusal := runSlot s

/-- `s` with one instruction where `step` fetches its next. A 16-bit word is the host's next write to CMD. An 8-bit
byte is the next byte of a running command (`BUSY = 1`), at the place in its frame that `decodeTableWord` gives it,
in a slot in which the host does nothing (log 8). -/
def State.withFetchWord (s : State) (nbits w : Nat) : State :=
  if nbits ≤ 8 then
    let b : Byte := BitVec.ofNat 8 w
    { s with
      inputs := .idle :: s.inputs, busy := true, uops := [], txQueue := b :: s.txQueue,
      segNext := match placeOfByte b with
        | .second _ => true
        | _ => false }
  else { s with inputs := .write (BitVec.ofNat 16 w) :: s.inputs }

end Sys2Proof.Machine
end

