-- ==== Sys2Proof/Machine/Assembler.lean ====
section
/-! DEFINITION. The assembler of 30_encoding.md R85 and R86: one line of text to one command word. -/

namespace Sys2Proof.Machine

/-- Why a line does not assemble (R85). -/
inductive AsmError where
  | unknownMnemonic
  | operandCount
  | badOperand
  deriving DecidableEq, Repr

/-- ASCII upper case to lower case: "Mnemonics are case-insensitive" (R85). -/
def lowerChar (c : Char) : Char := if 65 ≤ c.toNat ∧ c.toNat ≤ 90 then Char.ofNat (c.toNat + 32) else c

/-- A space or a tab. -/
def isBlankChar (c : Char) : Bool := c == ' ' || c == '\t'

/-- Without spaces at either end. -/
def trimBlanks (cs : List Char) : List Char :=
  ((cs.dropWhile isBlankChar).reverse.dropWhile isBlankChar).reverse

/-- The parts between the commas. -/
def splitCommas : List Char → List (List Char)
  | [] => [[]]
  | c :: cs =>
    match splitCommas cs with
    | [] => [[c]]
    | p :: ps => if c == ',' then [] :: p :: ps else (c :: p) :: ps

/-- The value of a digit in the given base. -/
def digitValue (base : Nat) (c : Char) : Option Nat :=
  let v :=
    if 48 ≤ c.toNat ∧ c.toNat ≤ 57 then c.toNat - 48
    else if 97 ≤ c.toNat ∧ c.toNat ≤ 102 then c.toNat - 87
    else 16
  if v < base then some v else none

/-- The value of digits read after `acc`. -/
def digitsValue (base acc : Nat) : List Char → Option Nat
  | [] => some acc
  | c :: cs =>
    match digitValue base c with
    | some v => digitsValue base (acc * base + v) cs
    | none => none

/-- At least one digit of the given base. -/
def numeral (base : Nat) : List Char → Option Nat
  | [] => none
  | c :: cs => digitsValue base 0 (c :: cs)

/-- "Operands are decimal, or hexadecimal with `0x`" (R85). -/
def unsignedOperand : List Char → Option Nat
  | '0' :: 'x' :: cs => numeral 16 cs
  | cs => numeral 10 cs

/-- "A Boolean operand is written `0`/`1` or `off`/`on`" (R85). -/
def boolOperand (cs : List Char) : Option Bool :=
  if cs = ['0'] ∨ cs = ['o', 'f', 'f'] then some false
  else if cs = ['1'] ∨ cs = ['o', 'n'] then some true
  else none

/-- A brightness: −128..127, "or 0x00–0xFF as raw bits" (R85). -/
def brOperand : List Char → Option Int
  | '0' :: 'x' :: cs =>
    match numeral 16 cs with
    | some v => if v < 256 then some (BitVec.ofNat 8 v).toInt else none
    | none => none
  | '-' :: cs => (numeral 10 cs).map (fun v : Nat => -(v : Int))
  | cs => (numeral 10 cs).map (fun v : Nat => (v : Int))

/-- "An operand outside the accepted range is an assembly error" (R85). -/
def ifInRange (i : Instr) : Except AsmError Instr := if i.wf then .ok i else .error .badOperand

/-- One operand. -/
def asm1 {α : Type} (f : List Char → Option α) (mk : α → Instr) : List (List Char) → Except AsmError Instr
  | [x] =>
    match f x with
    | some a => ifInRange (mk a)
    | none => .error .badOperand
  | _ => .error .operandCount

/-- Two operands. -/
def asm2 {α β : Type} (f : List Char → Option α) (g : List Char → Option β) (mk : α → β → Instr) :
    List (List Char) → Except AsmError Instr
  | [x, y] =>
    match f x, g y with
    | some a, some b => ifInRange (mk a b)
    | _, _ => .error .badOperand
  | _ => .error .operandCount

/-- No operand. -/
def asm0 (i : Instr) : List (List Char) → Except AsmError Instr
  | [] => ifInRange i
  | _ => .error .operandCount

/-- The operands of a line: none where the text is blank. -/
def operandsOf (cs : List Char) : List (List Char) :=
  if trimBlanks cs = [] then [] else (splitCommas cs).map trimBlanks

/-- A mnemonic of R85 or R86 with its operands. -/
def asmLine (mnemonic : List Char) (ops : List (List Char)) : Except AsmError Instr :=
  if mnemonic = ['i', 'n', 'i', 't'] then asm2 boolOperand brOperand .init ops
  else if mnemonic = ['e', 'n', 'a', 'b', 'l', 'e'] then asm1 boolOperand .enable ops
  else if mnemonic = ['s', 'e', 't', 'b', 'r'] then asm1 brOperand .setbr ops
  else if mnemonic = ['d', 'i', 'g', 'i', 't'] then asm2 unsignedOperand unsignedOperand .digit ops
  else if mnemonic = ['c', 'o', 'l', 'o', 'n'] then asm1 boolOperand .colon ops
  else if mnemonic = ['c', 'l', 'e', 'a', 'r'] then asm0 .clear ops
  else if mnemonic = ['o', 'n'] then asm0 Pseudo.on.expand ops
  else if mnemonic = ['o', 'f', 'f'] then asm0 Pseudo.off.expand ops
  else if mnemonic = ['b', 'l', 'a', 'n', 'k'] then asm1 unsignedOperand (fun p => (Pseudo.blank p).expand) ops
  else .error .unknownMnemonic

/-- A line of text to its instruction. Letters of operands are read in either case: PRESUMED, log 11. -/
def assembleChars (line : List Char) : Except AsmError Instr :=
  let cs := trimBlanks (line.map lowerChar)
  asmLine (cs.takeWhile (fun c => !isBlankChar c)) (operandsOf (cs.dropWhile (fun c => !isBlankChar c)))

/-- A line of text to its code (R85, R86). -/
def assemble (line : String) : Except AsmError Code :=
  match assembleChars line.toList with
  | .ok i => .ok (encode i)
  | .error e => .error e

end Sys2Proof.Machine
end

