-- ==== Sys2Proof/Machine/Micro.lean ====
section
/-! DEFINITION. The finer model that 00_scope.md R9 allows: "one event per micro-step", with BUSY observable and the
`F_BUSY` fault (60_exceptions.md R201, 70_reset_and_hazards.md R235). It shares the state, the checks, the events and
the ports of the atomic model, and makes the micro-sequencer of 10_state.md R34 explicit. -/

namespace Sys2Proof.Machine

/-- The micro-operations of START (40_transport.md R102). -/
def startOps : List MicroOp := startEvents.map .emit

/-- The micro-operations of STOP (R104). -/
def stopOps : List MicroOp := stopEvents.map .emit

/-- The micro-operations of XFER (R106, R107). -/
def xferOps (v : Byte) : List MicroOp :=
  (dataEvents v ++ ackOpenEvents).map .emit ++ .poll :: ackCloseEvents.map .emit

/-- The micro-operations of one wire byte at its place in the frame (R111); a host command is no wire byte. -/
def wireOps : Instr → List MicroOp
  | .init _ _ => []
  | .enable _ => []
  | .setbr _ => []
  | .digit _ _ => []
  | .colon _ => []
  | .clear => []
  | .dataCmdFixed => startOps ++ xferOps dataCmdByte ++ stopOps
  | .addrSet pos => startOps ++ xferOps (addrByte pos)
  | .dispCtrl on br => startOps ++ xferOps (dispCtrlByte on (clampBr br)) ++ stopOps
  | .segData seg => xferOps seg ++ stopOps

/-- The byte leaves its frame open for a segment byte. -/
def opensSegment : Instr → Bool
  | .addrSet _ => true
  | .init _ _ => false
  | .enable _ => false
  | .setbr _ => false
  | .digit _ _ => false
  | .colon _ => false
  | .clear => false
  | .dataCmdFixed => false
  | .dispCtrl _ _ => false
  | .segData _ => false

/-- The bytes WRITE_SEG sends (41_protocol.md R133). -/
def segBytes (pos : Nat) (seg : Byte) : List Byte := [dataCmdByte, addrByte pos, seg]

/-- The register writes of SEND_CFG, which come "before the frame" (R131), with its byte queued. -/
def beginCfg (en : Bool) (br : Int) (s : State) : State :=
  let b3 := clampBr br
  { s with cfgOn := en, cfgBr := b3, txQueue := [dispCtrlByte en b3] }

/-- What a command's body does before its first byte, and the bytes it will send (42_display.md R151–R156). -/
def beginBody : Instr → State → State
  | .init en br, s => beginCfg en br { emit .configureLines s with initDone := true }
  | .enable on, s => beginCfg on s.cfgBr.toNat s
  | .setbr br, s => beginCfg s.cfgOn (clamp br 0 Config.brMax) s
  | .digit pos digit, s =>
    { s with segcache := digitCache pos digit s, txQueue := segBytes pos (digitByte pos digit s) }
  | .colon on, s =>
    { s with segcache := withColon on s.segcache, txQueue := segBytes Config.colonPos (withColon on s.segcache) }
  | .clear, s => { s with txQueue := (List.range Config.nPos).flatMap (fun p => segBytes p 0x00) }
  | .dataCmdFixed, s => s
  | .addrSet _, s => s
  | .dispCtrl _ _, s => s
  | .segData _, s => s

/-- The command is INIT (R150). -/
def isInit : Instr → Bool
  | .init _ _ => true
  | .enable _ => false
  | .setbr _ => false
  | .digit _ _ => false
  | .colon _ => false
  | .clear => false
  | .dataCmdFixed => false
  | .addrSet _ => false
  | .dispCtrl _ _ => false
  | .segData _ => false

/-- A write to CMD under the checks of R150: it is accepted, and its events come in the following micro-steps. -/
def microWrite (cw : Word) (s : State) : Host.Outcome State Fault Refusal :=
  match decodeCommand cw with
  | .ok i => (commandGate (isInit i) s).run s (beginBody i (accept s))
  | .error _ => illegalWord s

/-- The byte sequencer takes the next byte of the running command; no event yet. -/
def loadByte (b : Byte) (s : State) : Host.Outcome State Fault Refusal :=
  match decode (nextCode s b) with
  | .ok i => .next { s with uops := wireOps i, segNext := opensSegment i }
  | .error _ => .refused .notAWireByte

/-- One micro-operation as one micro-step: the drive-low of a positive sample is an event of its own (40_transport.md
R107), so it waits at the head of `uops`. -/
def microOp (op : MicroOp) (ops : List MicroOp) (s : State) : State :=
  match op with
  | .emit e => emit e { s with uops := ops }
  | .poll => sampleDio { s with uops := if drawDio s then .emit .driveDioLow :: ops else ops }

/-- The engine's micro-step: at most one event. A halted engine "performs no further event" (60_exceptions.md R202). -/
def microSlot (s : State) : Host.Outcome State Fault Refusal :=
  if s.fault ≠ .noFault then .fault .halted
  else if !s.busy then .next s
  else
    match s.uops, s.txQueue with
    | op :: ops, _ => .next (microOp op ops s)
    | [], b :: bs => loadByte b { s with txQueue := bs }
    | [], [] => .next (complete s)

/-- A slot in which the host does nothing. -/
def microIdle (s : State) : Host.Outcome State Fault Refusal :=
  if s.fault ≠ .noFault then .next s else microSlot s

/-- One micro-step of the finer model. -/
def microStep (s : State) : Host.Outcome State Fault Refusal :=
  match s.inputs with
  | [] => microSlot s
  | m :: ms => takeInput microWrite microIdle m { s with inputs := ms }

/-- `n` micro-steps, stopping at the first fault or refusal. -/
def microRun : Nat → State → Host.Outcome State Fault Refusal
  | 0, s => .next s
  | n + 1, s =>
    match microStep s with
    | .next t => microRun n t
    | .fault r => .fault r
    | .refused r => .refused r

end Sys2Proof.Machine
end

