-- ==== Sys2Proof/Machine/Monitor.lean ====
section
/-! DEFINITION. What a bus observer reads off the wires (30_encoding.md R81): the frames, the acknowledgement samples,
the clock edges, the delays, and the bytes written to the remote segment space. It reads levels only, never the
procedures that made them. -/

namespace Sys2Proof.Machine

/-- A bus monitor. -/
structure Monitor where
  /-- The pins as the events left them. -/
  pins   : Pins
  /-- The bytes of the open frame, if one is open. -/
  frame  : Option (List Byte)
  /-- The bits clocked since the last whole byte, oldest first. -/
  bits   : List Bool
  /-- The closed frames, oldest first. -/
  frames : List (List Byte)
  deriving DecidableEq, Repr

/-- CLK goes from 0 to 1. -/
def clkRises (p q : Pins) : Bool := p.clkLevel == some false && q.clkLevel == some true

/-- CLK stays 1. -/
def clkHigh (p q : Pins) : Bool := p.clkLevel == some true && q.clkLevel == some true

/-- A START: "a falling DIO edge while CLK is high" (40_transport.md R103). -/
def isStart (p q : Pins) : Bool := clkHigh p q && p.dioLevel == some true && q.dioLevel == some false

/-- A STOP: "a rising DIO edge while CLK is high" (R105). -/
def isStop (p q : Pins) : Bool := clkHigh p q && p.dioLevel == some false && q.dioLevel == some true

/-- One event on the wires. Between a START and a STOP, eight rising CLK edges carry the bits of a byte, least
significant first (R106), and the ninth ends it (R109). -/
def Monitor.see (m : Monitor) (e : WireEvent) : Monitor :=
  let q := m.pins.apply e
  match m.frame with
  | none => if isStart m.pins q then { m with pins := q, frame := some [], bits := [] } else { m with pins := q }
  | some bytes =>
    if isStop m.pins q then { pins := q, frame := none, bits := [], frames := m.frames ++ [bytes] }
    else if clkRises m.pins q then
      if m.bits.length < 8 then { m with pins := q, bits := m.bits ++ [q.dioOut] }
      else { m with pins := q, frame := some (bytes ++ [BitVec.ofNat 8 (bitsToNat m.bits)]), bits := [] }
    else { m with pins := q }

/-- A monitor attached to lines in the given pin state, with no frame open. -/
def Monitor.attach (p : Pins) : Monitor := { pins := p, frame := none, bits := [], frames := [] }

/-- A monitor at rest: no frame open, the lines idle (10_state.md R36). -/
structure Monitor.AtRest (m : Monitor) : Prop where
  frame : m.frame = none
  bits  : m.bits = []
  pins  : m.pins = Pins.idle

/-- The monitor after the events. -/
def Monitor.watch (m : Monitor) (es : List WireEvent) : Monitor := es.foldl Monitor.see m

/-- The frames that the events put on lines in the given pin state. -/
def framesFrom (p : Pins) (es : List WireEvent) : List (List Byte) := ((Monitor.attach p).watch es).frames

/-- The pins before INIT: "the engine does not drive CLK or DIO" (70_reset_and_hazards.md R231). -/
def Pins.undriven : Pins := { clkDir := .input, clkOut := false, dioDir := .input, dioOut := false }

/-- The monitor of everything since reset. -/
def State.monitor (s : State) : Monitor := (Monitor.attach .undriven).watch s.trace

/-- The bits of the `Sample` events, in order (40_transport.md R108). -/
def samplesOf (es : List WireEvent) : List Bool :=
  es.filterMap (fun e => match e with
    | .sample a => some a
    | _ => none)

/-- How many settle delays the events hold (R101, R114). -/
def delaysOf (es : List WireEvent) : Nat := es.countP (· == .delay)

/-- "The duration of a command is at least its `Delay` count times `T_SETTLE`", microseconds (70_reset_and_hazards.md
R243, R236). -/
def minDuration (es : List WireEvent) : Nat := delaysOf es * Config.tSettle

/-- How many rising CLK edges the events make on lines in the given pin state (R109). -/
def risingEdges (p : Pins) : List WireEvent → Nat
  | [] => 0
  | e :: es => (clkRises p (p.apply e)).toNat + risingEdges (p.apply e) es

/-- The STARTs and STOPs: the changes of the driven DIO level while CLK is high (R103, R105, R106). -/
def dioEdgesWhileHigh (p : Pins) : List WireEvent → Nat
  | [] => 0
  | e :: es =>
    (isStart p (p.apply e) || isStop p (p.apply e)).toNat + dioEdgesWhileHigh (p.apply e) es

/-- The frame has one of the shapes of R81. -/
def frameShape : List Byte → Bool
  | [b] => b == 0x44#8 || b &&& 0xF0 == 0x80#8
  | [a, _] => a &&& 0xFC == 0xC0#8
  | _ => false

/-- The write to the remote segment space that a frame carries (20_memory.md R51, R52). -/
def segmentWrite : List Byte → Option Host.Cell
  | [a, v] => if a &&& 0xFC = 0xC0#8 then some ((a &&& 0x03).toNat, v) else none
  | _ => none

/-- The byte last sent to a position, if any (R51). -/
def lastSegment (frames : List (List Byte)) (pos : Nat) : Option Byte :=
  ((frames.filterMap segmentWrite).reverse.find? (fun c => c.1 == pos)).map (·.2)

/-- The display-control byte a frame carries (30_encoding.md R79). -/
def dispCtrlOf : List Byte → Option Byte
  | [b] => if b &&& 0xF0 = 0x80#8 then some b else none
  | _ => none

/-- The last display-control byte sent (10_state.md R24). -/
def lastDispCtrl (frames : List (List Byte)) : Option Byte := (frames.filterMap dispCtrlOf).getLast?

end Sys2Proof.Machine
end

