-- ==== Sys2Proof/Safety.lean ====
section
/-! DEFINITION. The words claims use: an engine at rest, an engine ready for a command, and the invariant of the
atomic model. -/

namespace Sys2Proof.Machine

/-- No command is in progress: what the atomic model shows between two steps (10_state.md R30, R34). -/
structure State.Quiet (s : State) : Prop where
  busy    : s.busy = false
  txQueue : s.txQueue = []
  uops    : s.uops = []
  segNext : s.segNext = false
  acks    : s.acks = []

/-- Ready for any command but INIT: initialised, no fault, the lines in the idle state of 10_state.md R36. -/
structure State.Ready (s : State) : Prop where
  quiet    : s.Quiet
  initDone : s.initDone = true
  fault    : s.fault = .noFault
  idle     : s.pins = Pins.idle

/-- Ready for INIT: not initialised, no fault (70_reset_and_hazards.md R232). Nothing is known of the pins (R231). -/
structure State.Fresh (s : State) : Prop where
  quiet    : s.Quiet
  initDone : s.initDone = false
  fault    : s.fault = .noFault

/-- The form of RESULT (10_state.md R28): n transfers, n one of 1, 3, 12 (0 after reset), and bits 11:n are 0. -/
def resultForm (r : Word) : Bool :=
  let n := (r.extractLsb' 12 4).toNat
  (n == 0 || n == 1 || n == 3 || n == 12) && r.extractLsb' 0 12 >>> n == 0#12

/-- What holds between two steps of the atomic model. -/
structure State.Inv (s : State) : Prop where
  /-- BUSY is 0 "at every state the model can observe" (10_state.md R30). -/
  quiet        : s.Quiet
  /-- The table keeps its pinned entries (30_encoding.md R83). -/
  table        : s.segTable.wf = true
  /-- The atomic model cannot reach `F_BUSY` (60_exceptions.md R201). -/
  noBusyFault  : s.fault ≠ .busy
  /-- RESULT keeps its form (10_state.md R28). -/
  result       : resultForm s.result = true
  /-- Before INIT nothing was sent, and nothing has changed SEGCACHE or RESULT (92_eei_decisions.md D14). -/
  beforeInit   : s.initDone = false → s.trace = [] ∧ s.segcache = 0xFF#8 ∧ s.result = 0#16 ∧ s.fault ≠ .reinit
  /-- After INIT the lines are idle (10_state.md R36). -/
  idle         : s.initDone = true → s.pins = Pins.idle
  /-- After INIT no command is too early (60_exceptions.md R201). -/
  noUninit     : s.initDone = true → s.fault ≠ .uninit
  /-- Every frame is closed (40_transport.md R111), and a monitor knows the lines to be idle. -/
  framesClosed : s.initDone = true → s.monitor.AtRest
  /-- Every frame has a shape of 30_encoding.md R81. -/
  frameShapes  : ∀ f ∈ s.monitor.frames, frameShape f = true
  /-- The configuration invariant (10_state.md R24). -/
  config       : s.initDone = true → lastDispCtrl s.monitor.frames = some (dispCtrlByte s.cfgOn s.cfgBr)

/-- The draw the k-th coming Sample will take, counting from 0 (00_scope.md R9, 40_transport.md R108). -/
def State.drawAt (s : State) (k : Nat) : Bool :=
  match s.draws[k]? with
  | some a => a
  | none => Config.freeLevel (s.drawCount + k)

/-- The draws the next `n` Samples will take, in order. -/
def State.nextDraws (s : State) (n : Nat) : List Bool := (List.range n).map s.drawAt

/-- A faulted state is "never a successful final state of a run" (60_exceptions.md R204). -/
def State.successful (s : State) : Bool := s.fault == .noFault

end Sys2Proof.Machine
end

