-- ==== Sys2Proof/Certificates/Slice0/Obligations.lean ====
section
/-! DEFINITION. The statements for the provers. -/

open Sys2Proof Sys2Proof.Machine

/-! ### Reset and the invariant -/

/-- 70_reset_and_hazards.md R230: the state after reset holds the values R230 gives. Nothing is said of CFG_ON, CFG_BR
and the pins, which R230 leaves unspecified, but that STATUS shows the configuration as 0. -/
def Obligations.ResetStateHoldsSpecValues : Prop :=
  State.reset.segcache = 0xFF#8 ∧ State.reset.initDone = false ∧ State.reset.fault = .noFault ∧
  State.reset.result = 0x0000#16 ∧ State.reset.busy = false ∧ State.reset.trace = [] ∧
  State.reset.status = 0xFF00#16 ∧ State.reset.segTable[3] = 0x4F#8 ∧ State.reset.segTable[4] = 0x66#8

/-- R234, R231, R204: a reset is taken in any state, halted or in the middle of a command, in both models: the command
is abandoned, the trace keeps nothing, FAULT is cleared, the table stays, and no wire event is emitted. -/
def Obligations.ResetAbandonsAnything : Prop :=
  ∀ (s : State) (k : List Input), s.inputs = .reset :: k →
    ∃ t, step s = .next t ∧ microStep s = .next t ∧
      t.segcache = 0xFF#8 ∧ t.initDone = false ∧ t.fault = .noFault ∧ t.result = 0x0000#16 ∧ t.busy = false ∧
      t.trace = [] ∧ t.status = 0xFF00#16 ∧ t.segTable = s.segTable ∧ t.Quiet ∧ t.inputs = k

/-- The invariant of the atomic model holds after reset. -/
def Obligations.ResetMeetsInvariant : Prop := State.reset.Inv

/-- Every step of the atomic model keeps the invariant: BUSY stays 0 and F_BUSY is never raised, RESULT keeps its form,
the lines are idle between commands (R36), every frame is closed and has a shape of R81, the last display-control byte
carries CFG_ON and CFG_BR (R24), and before INIT nothing was sent. -/
def Obligations.StepKeepsInvariant : Prop :=
  ∀ s t : State, s.Inv → step s = .next t → t.Inv

/-! ### Encoding -/

/-- A code decodes to an instruction exactly when it is the code `encode` gives that instruction and the instruction is
well formed: no bit is dropped, no reserved bit is ignored, each code has one instruction. -/
def Obligations.DecodeIffEncode : Prop :=
  ∀ (c : Code) (i : Instr), decode c = .ok i ↔ i.wf = true ∧ encode i = c

/-- 30_encoding.md R72, R74, R75: a word is a command exactly when it matches one of the six match and mask pairs, and
no word matches two of them. -/
def Obligations.CommandsAreTheSixPatterns : Prop :=
  commandRows.map (fun r => (r.pattern, r.mask)) =
    [(0x1000#16, 0xFE00#16), (0x2000#16, 0xFEFF#16), (0x3000#16, 0xFF00#16),
     (0x4000#16, 0xF000#16), (0x5000#16, 0xFEFF#16), (0x6000#16, 0xFFFF#16)] ∧
  ∀ cw : Word,
    ((∃ i, decodeCommand cw = .ok i) ↔ ∃ r ∈ commandRows, r.matches cw = true) ∧
    (∀ r ∈ commandRows, ∀ r' ∈ commandRows, r.matches cw = true → r'.matches cw = true → r = r')

/-- 30_encoding.md R73: how the operands are assembled from the word, said on the word as a number: en and on are bit 8,
pos is bits 11:8, digit is bits 7:0, br is bits 7:0 as a two's-complement integer. -/
def Obligations.OperandsOfCommandWords : Prop :=
  ∀ cw : Word,
    let n := cw.toNat
    let flag := n / 256 % 2 == 1
    let br : Int := if n % 256 < 128 then (n % 256 : Nat) else (n % 256 : Nat) - 256
    (n / 512 = 8 → decodeCommand cw = .ok (.init flag br)) ∧
    (n / 512 = 16 → n % 256 = 0 → decodeCommand cw = .ok (.enable flag)) ∧
    (n / 256 = 48 → decodeCommand cw = .ok (.setbr br)) ∧
    (n / 4096 = 4 → decodeCommand cw = .ok (.digit (n / 256 % 16) (n % 256))) ∧
    (n / 512 = 40 → n % 256 = 0 → decodeCommand cw = .ok (.colon flag)) ∧
    (n = 0x6000 → decodeCommand cw = .ok .clear)

/-- 30_encoding.md R87, both ways for the ten words and for its four illegal words; and the other words of the decode
table of 95_test_vectors.md 2.5, the wire bytes at their places in a frame among them. -/
def Obligations.SpecWordsDecode : Prop :=
  (∀ p ∈ [(0x1107#16, Instr.init true 7), (0x10F6#16, .init false (-10)), (0x2000#16, .enable false),
      (0x3009#16, .setbr 9), (0x30FF#16, .setbr (-1)), (0x4104#16, .digit 1 4), (0x400A#16, .digit 0 10),
      (0x4504#16, .digit 5 4), (0x5100#16, .colon true), (0x6000#16, .clear)],
    encode p.2 = .command p.1 ∧ decodeTableWord 16 p.1.toNat = some p.2) ∧
  (∀ w ∈ [0x7000, 0x2200, 0x2001, 0x6001, 0x0000, 0xFFFF], decodeTableWord 16 w = none) ∧
  decodeTableWord 16 0x1180 = some (.init true (-128)) ∧ decodeTableWord 16 0x2100 = some (.enable true) ∧
  decodeTableWord 16 0x4F0A = some (.digit 15 10) ∧ decode (.first 0x44) = .ok .dataCmdFixed ∧
  decode (.first 0xC2) = .ok (.addrSet 2) ∧ decode (.first 0x8D) = .ok (.dispCtrl true 5) ∧
  decode (.second 0x5B) = .ok (.segData 0x5B)

/-- 20_memory.md R52, 30_encoding.md R78: the address byte is `0xC0` plus the position modulo 4, for every unsigned
position, so it is one of `0xC0`–`0xC3`. -/
def Obligations.AddressByteIsPositionModFour : Prop :=
  ∀ pos : Nat, addrByte pos = BitVec.ofNat 8 (0xC0 + pos % 4)

/-- 30_encoding.md R79: the display-control byte, its fields, the sixteen values it takes, the source's two examples. -/
def Obligations.DisplayControlByteFields : Prop :=
  (∀ (on : Bool) (br : BitVec 3),
    dispCtrlByte on br = 0x80 ||| ((BitVec.ofBool on).setWidth 8 <<< 3) ||| br.setWidth 8 ∧
    (dispCtrlByte on br).extractLsb' 4 4 = 0b1000#4 ∧ (dispCtrlByte on br).getLsbD 3 = on ∧
    (dispCtrlByte on br).extractLsb' 0 3 = br ∧
    (dispCtrlByte on br).toNat = 0x80 + 8 * on.toNat + br.toNat) ∧
  (∀ n < 16, ∃ (on : Bool) (br : BitVec 3), dispCtrlByte on br = BitVec.ofNat 8 (0x80 + n) ∧ on = decide (8 ≤ n)) ∧
  dispCtrlByte true 7 = 0x8F#8 ∧ dispCtrlByte false 7 = 0x87#8

/-- 30_encoding.md R85, R86: a line that assembles gives the encoding of the line's instruction, which is well formed
and decodes back; and the word of every line of R85 and R86 with its operands in decimal (a brightness also as raw
hexadecimal bits), or, where an operand is outside the range R85 accepts, an error: nothing is truncated. -/
def Obligations.AssembledWordsDecodeBack : Prop :=
  let word : Nat → Except AsmError Code := fun n => .ok (.command (BitVec.ofNat 16 n))
  let bad : Except AsmError Code := .error .badOperand
  (∀ (line : String) (c : Code), assemble line = .ok c →
    ∃ (i : Instr) (cw : Word), assembleChars line.toList = .ok i ∧ encode i = .command cw ∧ c = .command cw ∧
      i.wf = true ∧ decodeCommand cw = .ok i) ∧
  (∀ (en : Nat) (br : Int), assemble ("INIT " ++ toString en ++ ", " ++ toString br) =
    if en < 2 ∧ -128 ≤ br ∧ br ≤ 127 then word (0x1000 + 256 * en + (br % 256).toNat) else bad) ∧
  (∀ on : Nat, assemble ("ENABLE " ++ toString on) = if on < 2 then word (0x2000 + 256 * on) else bad) ∧
  (∀ br : Int, assemble ("SETBR " ++ toString br) =
    if -128 ≤ br ∧ br ≤ 127 then word (0x3000 + (br % 256).toNat) else bad) ∧
  (∀ v : Nat, assemble ("SETBR 0x" ++ String.ofList (Nat.toDigits 16 v)) = if v < 256 then word (0x3000 + v) else bad) ∧
  (∀ pos d : Nat, assemble ("DIGIT " ++ toString pos ++ ", " ++ toString d) =
    if pos < 16 ∧ d < 256 then word (0x4000 + 256 * pos + d) else bad) ∧
  (∀ on : Nat, assemble ("COLON " ++ toString on) = if on < 2 then word (0x5000 + 256 * on) else bad) ∧
  (∀ pos : Nat, assemble ("BLANK " ++ toString pos) = if pos < 16 then word (0x400A + 256 * pos) else bad) ∧
  assemble "CLEAR" = word 0x6000 ∧ assemble "ON" = word 0x2100 ∧ assemble "OFF" = word 0x2000 ∧
  assemble "ENABLE on" = word 0x2100 ∧ assemble "COLON off" = word 0x5000

/-! ### The step and the ports -/

/-- A step whose next input is a legal word written to CMD is that word's instruction, run on the state without that
input; so is the step on a state in which a table word was placed, for the command words. -/
def Obligations.StepRunsCommandWord : Prop :=
  (∀ (s : State) (cw : Word) (k : List Input) (i : Instr),
    s.inputs = .write cw :: k → decodeCommand cw = .ok i → step s = exec i { s with inputs := k }) ∧
  ∀ (s : State) (w : Nat) (i : Instr), decodeTableWord 16 w = some i → step (s.withFetchWord 16 w) = exec i s

/-- A step in which the host does nothing, with a command in progress and a byte at the head of its queue, is that byte
as an instruction, run on the state without that byte: its place in the frame decides what it is (30_encoding.md R81).
So is the step on a state in which a table byte was placed. -/
def Obligations.StepRunsWireByte : Prop :=
  (∀ (s : State) (b : Byte) (bs : List Byte) (i : Instr),
    s.busy = true → s.fault = .noFault → s.uops = [] → s.txQueue = b :: bs → decode (nextCode s b) = .ok i →
    (s.inputs = [] → step s = exec i { s with txQueue := bs }) ∧
    (∀ k, s.inputs = .idle :: k → step s = exec i { s with txQueue := bs, inputs := k })) ∧
  ∀ (s : State) (w : Nat) (i : Instr), s.fault = .noFault → decodeTableWord 8 w = some i →
    ∃ next : Bool, step (s.withFetchWord 8 w) = exec i { s with busy := true, uops := [], segNext := next }

/-- 30_encoding.md R74, 60_exceptions.md R203: an illegal word raises F_ILLEGAL, before and after INIT alike, and has no
other effect. -/
def Obligations.IllegalWordRaisesIllegal : Prop :=
  ∀ (s : State) (cw : Word) (k : List Input) (e : DecodeReject),
    s.inputs = .write cw :: k → decodeCommand cw = .error e → s.fault = .noFault → s.busy = false →
    step s = .next { s with inputs := k, fault := .illegal }

/-- 42_display.md R157: STATUS and RESULT are read in any state, in both models, with no effect but the value the host
gets. -/
def Obligations.PortReadsHaveNoEffect : Prop :=
  ∀ (s : State) (k : List Input),
    (s.inputs = .readStatus :: k →
      step s = .next { s with inputs := k, reads := s.reads ++ [s.status] } ∧
      microStep s = .next { s with inputs := k, reads := s.reads ++ [s.status] }) ∧
    (s.inputs = .readResult :: k →
      step s = .next { s with inputs := k, reads := s.reads ++ [s.result] } ∧
      microStep s = .next { s with inputs := k, reads := s.reads ++ [s.result] })

/-- 10_state.md R29, 60_exceptions.md R201: the fields of STATUS. -/
def Obligations.StatusFields : Prop :=
  ∀ s : State,
    s.status.extractLsb' 8 8 = s.segcache ∧
    s.status.extractLsb' 5 3 = (match s.fault with
      | .noFault => 0#3
      | .uninit => 1#3
      | .reinit => 2#3
      | .illegal => 3#3
      | .busy => 4#3) ∧
    s.status.getLsbD 4 = s.initDone ∧
    s.status.getLsbD 3 = (s.initDone && s.cfgOn) ∧
    s.status.extractLsb' 0 3 = (if s.initDone then s.cfgBr else 0#3)

/-- 10_state.md R28: the layout of RESULT for up to twelve acknowledgement bits. -/
def Obligations.ResultLayout : Prop :=
  ∀ acks : List Bool, acks.length ≤ 12 →
    (packResult acks).extractLsb' 12 4 = BitVec.ofNat 4 acks.length ∧
    ∀ k, k < 12 → (packResult acks).getLsbD k = acks.getD k false

/-! ### The host commands -/

/-- 42_display.md R151: on a fresh engine INIT completes. The whole next state: CFG_ON, the clamped CFG_BR, INIT_DONE,
the idle lines, RESULT with one acknowledgement bit, and the events, which begin with ConfigureLines and put one frame
on the wires; SEGCACHE and everything else is unchanged. -/
def Obligations.InitCompletes : Prop :=
  ∀ (s : State) (en : Bool) (br : Int), s.Fresh →
    let b := (min (max br 0) 7).toNat
    ∃ evs, exec (.init en br) s = .next { s with
        cfgOn := en, cfgBr := BitVec.ofNat 3 b, initDone := true, pins := Pins.idle,
        result := BitVec.ofNat 16 (0x1000 + bitsToNat (s.nextDraws 1)),
        trace := s.trace ++ .configureLines :: evs, draws := s.draws.drop 1, drawCount := s.drawCount + 1 } ∧
      framesFrom s.pins (.configureLines :: evs) = [[BitVec.ofNat 8 (0x80 + 8 * en.toNat + b)]] ∧
      samplesOf evs = s.nextDraws 1

/-- R152: on a ready engine ENABLE completes. The whole next state: CFG_ON is the operand, CFG_BR is kept and sent;
RESULT, the trace, nothing else. -/
def Obligations.EnableCompletes : Prop :=
  ∀ (s : State) (on : Bool), s.Ready →
    ∃ evs, exec (.enable on) s = .next { s with
        cfgOn := on, result := BitVec.ofNat 16 (0x1000 + bitsToNat (s.nextDraws 1)),
        trace := s.trace ++ evs, draws := s.draws.drop 1, drawCount := s.drawCount + 1 } ∧
      framesFrom s.pins evs = [[BitVec.ofNat 8 (0x80 + 8 * on.toNat + s.cfgBr.toNat)]] ∧
      samplesOf evs = s.nextDraws 1

/-- R153: on a ready engine SETBR completes. The whole next state: CFG_BR is `min(max(br,0),7)`, CFG_ON is kept and
sent; RESULT, the trace, nothing else. -/
def Obligations.SetbrCompletes : Prop :=
  ∀ (s : State) (br : Int), s.Ready →
    let b := (min (max br 0) 7).toNat
    ∃ evs, exec (.setbr br) s = .next { s with
        cfgBr := BitVec.ofNat 3 b, result := BitVec.ofNat 16 (0x1000 + bitsToNat (s.nextDraws 1)),
        trace := s.trace ++ evs, draws := s.draws.drop 1, drawCount := s.drawCount + 1 } ∧
      framesFrom s.pins evs = [[BitVec.ofNat 8 (0x80 + 8 * s.cfgOn.toNat + b)]] ∧
      samplesOf evs = s.nextDraws 1

/-- R154: on a ready engine DIGIT completes, at every position and digit. The whole next state: at the raw position 1
SEGCACHE is the glyph with the cached colon and is what is sent; elsewhere the glyph is sent and SEGCACHE is kept;
RESULT, the trace, nothing else. -/
def Obligations.DigitCompletes : Prop :=
  ∀ (s : State) (pos d : Nat), s.Ready →
    let glyph : Byte := if h : d < 10 then s.segTable[d] else 0x00
    let out : Byte := if pos = 1 then glyph ||| (s.segcache &&& 0x80) else glyph
    ∃ evs, exec (.digit pos d) s = .next { s with
        segcache := if pos = 1 then out else s.segcache,
        result := BitVec.ofNat 16 (0x3000 + bitsToNat (s.nextDraws 3)),
        trace := s.trace ++ evs, draws := s.draws.drop 3, drawCount := s.drawCount + 3 } ∧
      framesFrom s.pins evs = [[0x44#8], [BitVec.ofNat 8 (0xC0 + pos % 4), out]] ∧
      samplesOf evs = s.nextDraws 3

/-- R155: on a ready engine COLON completes. The whole next state: bit 7 of SEGCACHE is the operand and the whole cache
is sent to position 1; RESULT, the trace, nothing else. -/
def Obligations.ColonCompletes : Prop :=
  ∀ (s : State) (on : Bool), s.Ready →
    let cache : Byte := if on then s.segcache ||| 0x80 else s.segcache &&& 0x7F
    ∃ evs, exec (.colon on) s = .next { s with
        segcache := cache, result := BitVec.ofNat 16 (0x3000 + bitsToNat (s.nextDraws 3)),
        trace := s.trace ++ evs, draws := s.draws.drop 3, drawCount := s.drawCount + 3 } ∧
      framesFrom s.pins evs = [[0x44#8], [0xC1#8, cache]] ∧
      samplesOf evs = s.nextDraws 3

/-- R156: on a ready engine CLEAR completes. The whole next state: RESULT with twelve acknowledgement bits and the
trace; SEGCACHE, CFG_ON, CFG_BR and everything else are unchanged. -/
def Obligations.ClearCompletes : Prop :=
  ∀ s : State, s.Ready →
    ∃ evs, exec .clear s = .next { s with
        result := BitVec.ofNat 16 (0xC000 + bitsToNat (s.nextDraws 12)),
        trace := s.trace ++ evs, draws := s.draws.drop 12, drawCount := s.drawCount + 12 } ∧
      framesFrom s.pins evs =
        [[0x44#8], [0xC0#8, 0x00#8], [0x44#8], [0xC1#8, 0x00#8], [0x44#8], [0xC2#8, 0x00#8], [0x44#8], [0xC3#8, 0x00#8]] ∧
      samplesOf evs = s.nextDraws 12

/-- R159, 70_reset_and_hazards.md R243: the traffic of every command, from a state in which it is accepted or faults:
frames, bytes, acknowledgement bits, delays, events (`k` of them for the bits equal to 1), the least duration the delays
give; no event when it faults. -/
def Obligations.CommandTrafficCounts : Prop :=
  ∀ (s t : State) (i : Instr) (evs : List WireEvent),
    s.Ready ∨ s.Fresh → exec i s = .next t → t.trace = s.trace ++ evs →
    let traffic := fun (frames bytes acks delays events : Nat) =>
      if t.fault = .noFault then
        (framesFrom s.pins evs).length = frames ∧ (framesFrom s.pins evs).flatten.length = bytes ∧
        (samplesOf evs).length = acks ∧ t.result.extractLsb' 12 4 = BitVec.ofNat 4 acks ∧
        delaysOf evs = delays ∧ minDuration evs = delays * Config.tSettle ∧
        evs.length = events + (samplesOf evs).count true
      else evs = []
    (∀ en br, i = .init en br → traffic 1 1 1 24 63) ∧
    (∀ on, i = .enable on → traffic 1 1 1 24 62) ∧
    (∀ br, i = .setbr br → traffic 1 1 1 24 62) ∧
    (∀ pos d, i = .digit pos d → traffic 2 3 3 68 175) ∧
    (∀ on, i = .colon on → traffic 2 3 3 68 175) ∧
    (i = .clear → traffic 8 12 12 272 700)

/-- 60_exceptions.md R203, 42_display.md R150: what a word written to CMD does under the checks, in their order: halted,
F_BUSY, F_ILLEGAL (the word matches none of the six patterns), F_UNINIT or F_REINIT; and a word that passes them all
raises nothing. -/
def Obligations.ChecksRunInOrder : Prop :=
  ∀ (s : State) (cw : Word),
    let legal := commandRows.any (fun r => r.matches cw)
    let op := cw.toNat / 4096
    (s.fault ≠ .noFault → writeCmd cw s = .fault .halted) ∧
    (s.fault = .noFault → s.busy = true → writeCmd cw s = .next { s with fault := .busy }) ∧
    (s.fault = .noFault → s.busy = false → legal = false → writeCmd cw s = .next { s with fault := .illegal }) ∧
    (s.fault = .noFault → s.busy = false → legal = true → op ≠ 1 → s.initDone = false →
      writeCmd cw s = .next { s with fault := .uninit }) ∧
    (s.fault = .noFault → s.busy = false → legal = true → op = 1 → s.initDone = true →
      writeCmd cw s = .next { s with fault := .reinit }) ∧
    (s.fault = .noFault → s.busy = false → legal = true → (op = 1 ↔ s.initDone = false) →
      ∃ t, writeCmd cw s = .next t ∧ t.fault = .noFault ∧ t.busy = false ∧ t.initDone = true)

/-- 60_exceptions.md R201, R202: every command but INIT before INIT raises F_UNINIT and has no other effect. -/
def Obligations.EarlyCommandsRaiseUninit : Prop :=
  ∀ s : State, s.Fresh →
    (∀ on, exec (.enable on) s = .next { s with fault := .uninit }) ∧
    (∀ br, exec (.setbr br) s = .next { s with fault := .uninit }) ∧
    (∀ pos d, exec (.digit pos d) s = .next { s with fault := .uninit }) ∧
    (∀ on, exec (.colon on) s = .next { s with fault := .uninit }) ∧
    exec .clear s = .next { s with fault := .uninit }

/-- 60_exceptions.md R201, R202: a second INIT raises F_REINIT and has no other effect. -/
def Obligations.SecondInitRaisesReinit : Prop :=
  ∀ (s : State) (en : Bool) (br : Int), s.fault = .noFault → s.busy = false → s.initDone = true →
    exec (.init en br) s = .next { s with fault := .reinit }

/-- 60_exceptions.md R204: with FAULT nonzero no instruction makes a step, nor does the engine of itself or at a write
to CMD; the host can still read STATUS and RESULT; whatever step there is (a port read, an idle slot) changes no
register, no pin and not the trace, so only a reset clears FAULT; and the state is no successful final state. -/
def Obligations.HaltedEngineMakesNoStep : Prop :=
  ∀ s : State, s.fault ≠ .noFault →
    (∀ i, exec i s = .fault .halted) ∧
    (s.inputs = [] → step s = .fault .halted ∧ microStep s = .fault .halted) ∧
    (∀ cw k, s.inputs = .write cw :: k → step s = .fault .halted ∧ microStep s = .fault .halted) ∧
    (∀ k, s.inputs = .readStatus :: k → ∃ t, step s = .next t ∧ t.reads = s.reads ++ [s.status]) ∧
    (∀ k, s.inputs = .readResult :: k → ∃ t, step s = .next t ∧ t.reads = s.reads ++ [s.result]) ∧
    (∀ t, (step s = .next t ∨ microStep s = .next t) → (∀ k, s.inputs ≠ .reset :: k) →
      t = { s with inputs := t.inputs, reads := t.reads }) ∧
    (∀ k, s.inputs = .reset :: k → ∃ t, step s = .next t ∧ t.fault = .noFault) ∧
    s.successful = false

/-! ### The wire bytes -/

/-- 30_encoding.md R77, 41_protocol.md R130: DATA_CMD_FIXED, sent from idle lines, completes: one frame `[0x44]`, one
acknowledgement bit taken, the lines idle again, nothing else changed. -/
def Obligations.DataCmdFixedCompletes : Prop :=
  ∀ s : State, s.fault = .noFault → s.pins = Pins.idle →
    ∃ evs, exec .dataCmdFixed s = .next { s with
        trace := s.trace ++ evs, acks := s.acks ++ s.nextDraws 1,
        draws := s.draws.drop 1, drawCount := s.drawCount + 1 } ∧
      framesFrom s.pins evs = [[0x44#8]] ∧ samplesOf evs = s.nextDraws 1

/-- R78, 41_protocol.md R133: ADDR_SET, sent from idle lines, completes: it opens a frame that holds the address byte
and stays open; DIO is left at the complement of the acknowledgement bit (40_transport.md R110). -/
def Obligations.AddrSetCompletes : Prop :=
  ∀ (s : State) (pos : Nat), s.fault = .noFault → s.pins = Pins.idle →
    ∃ evs, exec (.addrSet pos) s = .next { s with
        pins := { Pins.idle with clkOut := false, dioOut := !s.drawAt 0 }, segNext := true,
        trace := s.trace ++ evs, acks := s.acks ++ s.nextDraws 1,
        draws := s.draws.drop 1, drawCount := s.drawCount + 1 } ∧
      ((Monitor.attach s.pins).watch evs).frame = some [BitVec.ofNat 8 (0xC0 + pos % 4)] ∧
      framesFrom s.pins evs = [] ∧ samplesOf evs = s.nextDraws 1

/-- R79, 41_protocol.md R131, R132: DISP_CTRL, sent from idle lines, completes: CFG_ON and CFG_BR hold what the byte
carries, one frame, one acknowledgement bit taken, nothing else changed. That the byte writes both fields is the
model's reading of SEND_CFG (log 7). -/
def Obligations.DispCtrlCompletes : Prop :=
  ∀ (s : State) (on : Bool) (br : Nat), br < 8 → s.fault = .noFault → s.pins = Pins.idle →
    ∃ evs, exec (.dispCtrl on br) s = .next { s with
        cfgOn := on, cfgBr := BitVec.ofNat 3 br,
        trace := s.trace ++ evs, acks := s.acks ++ s.nextDraws 1,
        draws := s.draws.drop 1, drawCount := s.drawCount + 1 } ∧
      framesFrom s.pins evs = [[BitVec.ofNat 8 (0x80 + 8 * on.toNat + br)]] ∧ samplesOf evs = s.nextDraws 1

/-- R80, 41_protocol.md R133: SEG_DATA, sent with CLK low and DIO an output, completes: any monitor with an open frame
sees the byte join it unchanged and the frame close; the lines are idle afterwards. -/
def Obligations.SegDataCompletes : Prop :=
  ∀ (s : State) (seg : Byte), s.fault = .noFault →
    s.pins.clkDir = .output → s.pins.clkOut = false → s.pins.dioDir = .output →
    ∃ evs, exec (.segData seg) s = .next { s with
        pins := Pins.idle, segNext := false,
        trace := s.trace ++ evs, acks := s.acks ++ s.nextDraws 1,
        draws := s.draws.drop 1, drawCount := s.drawCount + 1 } ∧
      samplesOf evs = s.nextDraws 1 ∧
      ∀ (m : Monitor) (bytes : List Byte), m.pins = s.pins → m.frame = some bytes → m.bits = [] →
        m.watch evs = { pins := Pins.idle, frame := none, bits := [], frames := m.frames ++ [bytes ++ [seg]] }

/-- 40_transport.md R109: whatever the byte and the draw, XFER makes exactly nine rising CLK edges, each a `SetClk(1)`
after a `SetClk(0)` with no other `SetClk` between them: eight with the data bits, the ninth with the acknowledgement.
With it, R106: no START or STOP; R114: 51 events plus the drive-low, 20 delays, one sample. -/
def Obligations.TransferHasNineClocks : Prop :=
  ∀ (v : Byte) (s : State), s.pins.clkDir = .output →
    ∃ evs, (xfer v s).trace = s.trace ++ evs ∧
      risingEdges s.pins evs = 9 ∧ dioEdgesWhileHigh s.pins evs = 0 ∧
      evs.filter (fun e => e == .setClk true || e == .setClk false) =
        (List.replicate 9 [WireEvent.setClk false, .setClk true]).flatten ++ [.setClk false] ∧
      risingEdges s.pins (evs.takeWhile (fun e => e != .sample (s.drawAt 0))) = 8 ∧
      evs.length = 51 + (s.drawAt 0).toNat ∧ delaysOf evs = 20 ∧ samplesOf evs = [s.drawAt 0] ∧
      evs.count .driveDioLow = (s.drawAt 0).toNat

/-- R110, R108: the line state and the value at the end of XFER, from any state. -/
def Obligations.TransferLineState : Prop :=
  ∀ (v : Byte) (s : State),
    (xfer v s).pins = { clkDir := s.pins.clkDir, clkOut := false, dioDir := .output, dioOut := !s.drawAt 0 } ∧
    (xfer v s).acks = s.acks ++ [s.drawAt 0] ∧
    xfer v s = { s with
      pins := (xfer v s).pins, trace := (xfer v s).trace, draws := s.draws.drop 1,
      drawCount := s.drawCount + 1, acks := s.acks ++ [s.drawAt 0] }

/-- R102–R105: START from idle lines is one falling DIO edge while CLK is high, with no rising CLK edge; STOP after an
XFER is one rising DIO edge while CLK is high, with one rising CLK edge; both write only the pins and the trace. -/
def Obligations.StartAndStopEdges : Prop :=
  (∀ s : State, s.pins = Pins.idle →
    ∃ evs, start s = { s with pins := { Pins.idle with dioOut := false }, trace := s.trace ++ evs } ∧
      dioEdgesWhileHigh s.pins evs = 1 ∧ risingEdges s.pins evs = 0 ∧ evs.length = 4 ∧ delaysOf evs = 1) ∧
  ∀ s : State, s.pins.clkDir = .output → s.pins.clkOut = false → s.pins.dioDir = .output →
    ∃ evs, stop s = { s with pins := Pins.idle, trace := s.trace ++ evs } ∧
      dioEdgesWhileHigh s.pins evs = 1 ∧ risingEdges s.pins evs = 1 ∧ evs.length = 7 ∧ delaysOf evs = 3

/-- 95_test_vectors.md T3: the 52 events of XFER(0x8F) with a draw of 1, written out. -/
def Obligations.TransferEventsOf8F : Prop :=
  ∀ s : State, s.draws = [true] →
    (xfer 0x8F s).trace = s.trace ++
      [.setClk false, .delay, .setDio true, .setClk true, .delay,
       .setClk false, .delay, .setDio true, .setClk true, .delay,
       .setClk false, .delay, .setDio true, .setClk true, .delay,
       .setClk false, .delay, .setDio true, .setClk true, .delay,
       .setClk false, .delay, .setDio false, .setClk true, .delay,
       .setClk false, .delay, .setDio false, .setClk true, .delay,
       .setClk false, .delay, .setDio false, .setClk true, .delay,
       .setClk false, .delay, .setDio true, .setClk true, .delay,
       .setClk false, .dioDir .input, .setDio true, .delay, .sample true, .driveDioLow, .delay, .setClk true, .delay,
       .setClk false, .delay, .dioDir .output]

/-! ### Whole-machine rules -/

/-- 41_protocol.md R132, 10_state.md R26, R27, R28, R30, 42_display.md R151, 60_exceptions.md R201: which instructions may
change each register, and when FAULT and RESULT change; BUSY is as before (the command has completed, or raised), and
none changes SEG_TABLE, the host's side or the micro-sequencer's queues. That DISP_CTRL is among the writers of CFG_ON
and CFG_BR is the model's reading of that byte (log 7). -/
def Obligations.OnlyTheseInstructionsWrite : Prop :=
  ∀ (i : Instr) (s t : State), exec i s = .next t →
    let isInitCmd := ∃ en br, i = .init en br
    let isLaterCmd := (∃ on, i = .enable on) ∨ (∃ br, i = .setbr br) ∨ (∃ pos d, i = .digit pos d) ∨
      (∃ on, i = .colon on) ∨ i = .clear
    (t.cfgOn ≠ s.cfgOn → isInitCmd ∨ (∃ on, i = .enable on) ∨ ∃ on br, i = .dispCtrl on br) ∧
    (t.cfgBr ≠ s.cfgBr → isInitCmd ∨ (∃ br, i = .setbr br) ∨ ∃ on br, i = .dispCtrl on br) ∧
    (t.segcache ≠ s.segcache → (∃ d, i = .digit 1 d) ∨ ∃ on, i = .colon on) ∧
    (t.initDone ≠ s.initDone → isInitCmd) ∧
    (t.pins.clkDir ≠ s.pins.clkDir → isInitCmd) ∧
    (t.result ≠ s.result → (isInitCmd ∨ isLaterCmd) ∧ t.fault = .noFault) ∧
    (t.fault ≠ s.fault →
      (t.fault = .uninit ∧ isLaterCmd ∧ s.initDone = false) ∨ (t.fault = .reinit ∧ isInitCmd ∧ s.initDone = true) ∨
      (t.fault = .busy ∧ (isInitCmd ∨ isLaterCmd) ∧ s.busy = true)) ∧
    t.busy = s.busy ∧
    t.segTable = s.segTable ∧ t.inputs = s.inputs ∧ t.reads = s.reads ∧ t.txQueue = s.txQueue ∧ t.uops = s.uops

/-- 60_exceptions.md R202, R204: an instruction that changes FAULT changes nothing else, and it starts from no fault. -/
def Obligations.FaultEntryChangesNothingElse : Prop :=
  ∀ (i : Instr) (s t : State), exec i s = .next t → t.fault ≠ s.fault →
    t = { s with fault := t.fault } ∧ s.fault = .noFault

/-- 10_state.md R32, R59, 40_transport.md R108: whatever an instruction does, it only appends to the trace, and the
samples it appends are the next draws, each taken once and in order. -/
def Obligations.TraceOnlyGrowsByTheDraws : Prop :=
  ∀ (i : Instr) (s t : State), exec i s = .next t →
    ∃ (evs : List WireEvent) (n : Nat), t.trace = s.trace ++ evs ∧ samplesOf evs = s.nextDraws n ∧
      t.draws = s.draws.drop n ∧ t.drawCount = s.drawCount + n

/-- 60_exceptions.md R205, 40_transport.md R113: the draws change nothing but the acknowledgement record and the
drive-lows. Two runs of one CMD write that differ only in the draws end alike in every register but RESULT, send the
same frames, and make the same events but for `Sample` and `DriveDioLow`; with draws of 0 the command completes too,
with no drive-low, and RESULT records 0 bits. -/
def Obligations.DrawsChangeOnlyTheAcknowledgements : Prop :=
  ∀ (s : State) (ds : List Bool) (n : Nat) (cw : Word), s.Inv → s.fault = .noFault →
    let s' := { s with draws := ds, drawCount := n }
    let others := fun e : WireEvent => match e with
      | .sample _ => false
      | .driveDioLow => false
      | _ => true
    ∃ (t t' : State) (evs evs' : List WireEvent),
      writeCmd cw s = .next t ∧ writeCmd cw s' = .next t' ∧
      t.trace = s.trace ++ evs ∧ t'.trace = s.trace ++ evs' ∧
      framesFrom s.pins evs = framesFrom s.pins evs' ∧ evs.filter others = evs'.filter others ∧
      t' = { t with result := t'.result, trace := t'.trace, draws := t'.draws, drawCount := t'.drawCount } ∧
      ((∀ k < 12, s'.drawAt k = false) → evs' ≠ [] →
        t'.fault = .noFault ∧ .driveDioLow ∉ evs' ∧ t'.result.extractLsb' 0 12 = 0#12)

/-- 42_display.md R158: COLON and DIGIT at position 1, in either order, end with the same SEGCACHE and the same last
byte at address `0xC1`: the glyph, with bit 7 set for COLON 1 and clear for COLON 0. -/
def Obligations.ColonAndDigitCommute : Prop :=
  ∀ (s : State) (d : Nat) (on : Bool), s.Ready → s.segTable.wf = true →
    let glyph : Byte := if h : d < 10 then s.segTable[d] else 0x00
    let out : Byte := if on then glyph ||| 0x80 else glyph
    ∃ (a a' b b' : State) (evs evs' : List WireEvent),
      exec (.colon on) s = .next a ∧ exec (.digit 1 d) a = .next a' ∧ a'.trace = s.trace ++ evs ∧
      exec (.digit 1 d) s = .next b ∧ exec (.colon on) b = .next b' ∧ b'.trace = s.trace ++ evs' ∧
      a'.segcache = out ∧ b'.segcache = out ∧
      lastSegment (framesFrom s.pins evs) 1 = some out ∧ lastSegment (framesFrom s.pins evs') 1 = some out

/-- 70_reset_and_hazards.md R238: DIGIT at 5, 9 or 13 sends a byte with bit 7 clear to address `0xC1` and does not
touch SEGCACHE, and a later COLON re-renders the glyph in SEGCACHE. -/
def Obligations.AliasedDigitDropsColon : Prop :=
  ∀ (s : State) (pos d : Nat) (on : Bool), s.Ready → s.segTable.wf = true → pos = 5 ∨ pos = 9 ∨ pos = 13 →
    ∃ (t u : State) (out : Byte) (evs evs' : List WireEvent),
      exec (.digit pos d) s = .next t ∧ t.trace = s.trace ++ evs ∧ t.segcache = s.segcache ∧
      framesFrom s.pins evs = [[0x44#8], [0xC1#8, out]] ∧ out.getLsbD 7 = false ∧
      exec (.colon on) t = .next u ∧ u.trace = t.trace ++ evs' ∧
      ∃ c : Byte, framesFrom t.pins evs' = [[0x44#8], [0xC1#8, c]] ∧
        c.extractLsb' 0 7 = s.segcache.extractLsb' 0 7 ∧ c.getLsbD 7 = on

/-- 70_reset_and_hazards.md R239: after CLEAR, position 1 was last sent `0x00` while SEGCACHE keeps its value, and COLON
sends the old glyph again; after BLANK 1 (DIGIT 1, 10) the glyph in SEGCACHE is 0, and COLON sends a blank glyph. -/
def Obligations.ClearLeavesTheLatch : Prop :=
  ∀ (s : State) (on : Bool), s.Ready →
    (∃ (t u : State) (evs evs' : List WireEvent),
      exec .clear s = .next t ∧ t.trace = s.trace ++ evs ∧ t.segcache = s.segcache ∧
      lastSegment (framesFrom s.pins evs) 1 = some 0x00#8 ∧
      exec (.colon on) t = .next u ∧ u.trace = t.trace ++ evs' ∧
      lastSegment (framesFrom t.pins evs') 1 = some (if on then s.segcache ||| 0x80 else s.segcache &&& 0x7F)) ∧
    ∃ (v w : State) (evs : List WireEvent) (c : Byte),
      exec (Pseudo.blank 1).expand s = .next v ∧ v.segcache.extractLsb' 0 7 = 0#7 ∧
      exec (.colon on) v = .next w ∧ w.trace = v.trace ++ evs ∧
      lastSegment (framesFrom v.pins evs) 1 = some c ∧ c.extractLsb' 0 7 = 0#7

/-- 70_reset_and_hazards.md R240: from a reset taken in any state with a well-formed table, INIT and then the first
DIGIT 1, d sends the glyph with the colon lit, and INIT and then the first COLON 0 sends `0x7F`. -/
def Obligations.ColonIsSetAfterReset : Prop :=
  ∀ (s : State) (en : Bool) (br : Int) (d : Nat), s.segTable.wf = true →
    let glyph : Byte := if h : d < 10 then s.segTable[d] else 0x00
    ∃ (t u v : State) (evs evs' : List WireEvent),
      exec (.init en br) (platformReset s) = .next t ∧
      exec (.digit 1 d) t = .next u ∧ u.trace = t.trace ++ evs ∧
      framesFrom t.pins evs = [[0x44#8], [0xC1#8, glyph ||| 0x80]] ∧
      exec (.colon false) t = .next v ∧ v.trace = t.trace ++ evs' ∧
      framesFrom t.pins evs' = [[0x44#8], [0xC1#8, 0x7F#8]]

/-- 20_memory.md R51, R52: a segment command writes only the position it names: DIGIT writes position `pos mod 4`,
COLON position 1, and what was last sent to any other position stays. -/
def Obligations.OtherPositionsKeepTheirByte : Prop :=
  ∀ (s t : State) (q : Nat), s.Inv → s.Ready →
    (∀ pos d, exec (.digit pos d) s = .next t → q ≠ pos % 4 →
      lastSegment t.monitor.frames q = lastSegment s.monitor.frames q) ∧
    (∀ on, exec (.colon on) s = .next t → q ≠ 1 →
      lastSegment t.monitor.frames q = lastSegment s.monitor.frames q) ∧
    (exec .clear s = .next t → q < 4 → lastSegment t.monitor.frames q = some 0x00#8)

/-- 20_memory.md R58, its example: two ENABLE in a row send the same frame twice. -/
def Obligations.RepeatedEnableSendsAgain : Prop :=
  ∀ (s : State) (on : Bool), s.Ready →
    ∃ (t u : State) (evs evs' : List WireEvent) (b : Byte),
      exec (.enable on) s = .next t ∧ t.trace = s.trace ++ evs ∧ framesFrom s.pins evs = [[b]] ∧
      exec (.enable on) t = .next u ∧ u.trace = t.trace ++ evs' ∧ framesFrom t.pins evs' = [[b]]

/-- 20_memory.md R58: "The engine never suppresses a redundant write". SETBR, DIGIT, COLON or CLEAR, issued twice with the
same operands, completes twice and sends the same frames twice (ENABLE: `RepeatedEnableSendsAgain`). -/
def Obligations.OtherRepeatedCommandsSendAgain : Prop :=
  ∀ (s : State) (i : Instr), s.Ready →
    ((∃ br, i = .setbr br) ∨ (∃ pos d, i = .digit pos d) ∨ (∃ on, i = .colon on) ∨ i = .clear) →
    ∃ (t u : State) (evs evs' : List WireEvent),
      exec i s = .next t ∧ t.fault = .noFault ∧ t.trace = s.trace ++ evs ∧ framesFrom s.pins evs ≠ [] ∧
      exec i t = .next u ∧ u.fault = .noFault ∧ u.trace = t.trace ++ evs' ∧
      framesFrom t.pins evs' = framesFrom s.pins evs

/-! ### The finer model -/

/-- 00_scope.md R9, 40_transport.md R112: the finer model refines the atomic one. A word written to a quiet engine, with
the host silent afterwards, takes some number of micro-steps to exactly the outcome of the one atomic step. -/
def Obligations.MicroStepsRefineTheStep : Prop :=
  ∀ (s : State) (cw : Word), s.Quiet →
    ∃ n, microRun n { s with inputs := [.write cw] } = step { s with inputs := [.write cw] }

/-- 00_scope.md R9: a micro-step emits at most one event, and only appends to the trace (a reset aside). -/
def Obligations.MicroStepEmitsAtMostOneEvent : Prop :=
  ∀ s t : State, microStep s = .next t → (∀ k, s.inputs ≠ .reset :: k) →
    ∃ evs : List WireEvent, evs.length ≤ 1 ∧ t.trace = s.trace ++ evs

/-- 60_exceptions.md R202, 70_reset_and_hazards.md R235: a word, legal or not, written while BUSY is 1 raises F_BUSY;
the running command stays where it was, BUSY stays 1, and the engine performs no further event. The rules say this of a
micro-step model; that `step` too raises F_BUSY in such a state, which the atomic model does not reach, is the model's
choice (log 14). -/
def Obligations.WriteWhileBusyFreezesTheCommand : Prop :=
  ∀ (s : State) (cw : Word) (k : List Input), s.busy = true → s.fault = .noFault → s.inputs = .write cw :: k →
    microStep s = .next { s with inputs := k, fault := .busy } ∧
    step s = .next { s with inputs := k, fault := .busy } ∧
    ∀ (n : Nat) (t : State), microRun n { s with inputs := k, fault := .busy } = .next t → (∀ m ∈ k, m ≠ .reset) →
      t.trace = s.trace ∧ t.pins = s.pins ∧ t.busy = true ∧ t.fault = .busy

/-- 20_memory.md R57, R59: two words written one after the other to a ready engine run one after the other: the trace is
the old one, then the first command's events, then the second's. -/
def Obligations.CommandsRunInOrder : Prop :=
  ∀ (s t u : State) (cw cw' : Word) (k : List Input),
    s.inputs = .write cw :: .write cw' :: k → step s = .next t → step t = .next u →
    t.inputs = .write cw' :: k ∧ t.fault = .noFault ∧ t.busy = false ∧ u.inputs = k ∧
    ∃ evs evs' : List WireEvent, evs ≠ [] ∧ t.trace = s.trace ++ evs ∧ u.trace = s.trace ++ (evs ++ evs')
end

