-- ==== Sys2Proof/Laws/PerInstr.lean ====
section
/-! SUPPORT. Statements made once per instruction: a well-formed instruction's code decodes to it. -/

namespace Sys2Proof.Laws.DecodeEncode

/-- Decoding what `encode` gives a well-formed instruction gives the instruction back (30_encoding.md R72, R73). -/
def Statement (i : Instr) : Prop := i.wf = true → decode (encode i) = .ok i

end Sys2Proof.Laws.DecodeEncode

namespace Sys2Proof

/-! ### The fields of a word that was put together from fields (30_encoding.md R71) -/

/-- A word as a number. -/
theorem toNat_commandWord (op a : BitVec 4) (b : Byte) :
    (commandWord op a b).toNat = op.toNat * 4096 + a.toNat * 256 + b.toNat := by
  have h1 : (op ++ a).toNat = op.toNat * 16 + a.toNat := by
    rw [BitVec.toNat_append, ← Nat.shiftLeft_add_eq_or_of_lt a.isLt, Nat.shiftLeft_eq]
  have h2 : ((op ++ a) ++ b).toNat = (op ++ a).toNat * 256 + b.toNat := by
    rw [BitVec.toNat_append, ← Nat.shiftLeft_add_eq_or_of_lt b.isLt, Nat.shiftLeft_eq]
  have h3 : (commandWord op a b).toNat = ((op ++ a) ++ b).toNat := rfl
  omega

theorem toNat_fieldOp (cw : Word) : (fieldOp cw).toNat = cw.toNat / 4096 := by
  have := cw.isLt
  simp only [fieldOp, BitVec.extractLsb'_toNat, Nat.shiftRight_eq_div_pow]
  omega

theorem toNat_fieldA (cw : Word) : (fieldA cw).toNat = cw.toNat / 256 % 16 := by
  simp only [fieldA, BitVec.extractLsb'_toNat, Nat.shiftRight_eq_div_pow]

theorem toNat_fieldB (cw : Word) : (fieldB cw).toNat = cw.toNat % 256 := by
  simp only [fieldB, BitVec.extractLsb'_toNat, Nat.shiftRight_eq_div_pow, Nat.pow_zero, Nat.div_one]

@[simp] theorem fieldOp_commandWord (op a : BitVec 4) (b : Byte) : fieldOp (commandWord op a b) = op := by
  apply BitVec.eq_of_toNat_eq
  have := op.isLt; have := a.isLt; have := b.isLt
  rw [toNat_fieldOp, toNat_commandWord]; omega

@[simp] theorem fieldA_commandWord (op a : BitVec 4) (b : Byte) : fieldA (commandWord op a b) = a := by
  apply BitVec.eq_of_toNat_eq
  have := op.isLt; have := a.isLt; have := b.isLt
  rw [toNat_fieldA, toNat_commandWord]; omega

@[simp] theorem fieldB_commandWord (op a : BitVec 4) (b : Byte) : fieldB (commandWord op a b) = b := by
  apply BitVec.eq_of_toNat_eq
  have := op.isLt; have := a.isLt; have := b.isLt
  rw [toNat_fieldB, toNat_commandWord]; omega

/-- A word is its three fields. -/
theorem commandWord_fields (cw : Word) : commandWord (fieldOp cw) (fieldA cw) (fieldB cw) = cw := by
  apply BitVec.eq_of_toNat_eq
  rw [toNat_commandWord, toNat_fieldOp, toNat_fieldA, toNat_fieldB]; omega

@[simp] theorem flagOnly_flagField (on : Bool) : flagOnly (flagField on) = true := by cases on <;> decide

@[simp] theorem flagField_bit (on : Bool) : (flagField on)[0] = on := by cases on <;> decide

/-- A brightness operand in range is the value of its eight bits (R73). -/
theorem toInt_ofInt_br (br : Int) (h : brOperandOk br = true) : (BitVec.ofInt 8 br).toInt = br := by
  simp only [brOperandOk, Bool.and_eq_true, decide_eq_true_eq] at h
  rw [BitVec.toInt_ofInt]
  simp only [Int.bmod]
  omega

end Sys2Proof

namespace Sys2Proof.Laws.DecodeEncode

theorem init (en : Bool) (br : Int) : Statement (.init en br) := by
  intro h
  simp [encode, decode, decodeCommand, ifReservedZero, toInt_ofInt_br br h]

theorem enable (on : Bool) : Statement (.enable on) := by
  intro _
  simp [encode, decode, decodeCommand, ifReservedZero]

theorem setbr (br : Int) : Statement (.setbr br) := by
  intro h
  simp [encode, decode, decodeCommand, ifReservedZero, toInt_ofInt_br br h]

theorem digit (pos d : Nat) : Statement (.digit pos d) := by
  intro h
  simp only [Instr.wf, Bool.and_eq_true, decide_eq_true_eq] at h
  simp [encode, decode, decodeCommand, Nat.mod_eq_of_lt h.1, Nat.mod_eq_of_lt h.2]

theorem colon (on : Bool) : Statement (.colon on) := by
  intro _
  simp [encode, decode, decodeCommand, ifReservedZero]

theorem clear : Statement .clear := by
  intro _
  simp [encode, decode, decodeCommand, ifReservedZero]

theorem dataCmdFixed : Statement .dataCmdFixed := by
  intro _; decide

theorem addrSet (pos : Nat) : Statement (.addrSet pos) := by
  intro h
  have h4 : pos < 4 := by simpa [Instr.wf] using h
  match pos, h4 with
  | 0, _ => decide
  | 1, _ => decide
  | 2, _ => decide
  | 3, _ => decide

theorem dispCtrl (on : Bool) (br : Nat) : Statement (.dispCtrl on br) := by
  intro h
  have h8 : br < 8 := by simpa [Instr.wf] using h
  have all : ∀ on : Bool, ∀ b : Fin 8, decode (encode (.dispCtrl on b)) = .ok (.dispCtrl on b) := by decide
  exact all on ⟨br, h8⟩

theorem segData (seg : Byte) : Statement (.segData seg) := by
  intro _; rfl

end Sys2Proof.Laws.DecodeEncode
end

