-- ==== Sys2Proof/Laws/Assembler.lean ====
section
/-! SUPPORT. How the assembler reads numerals and lines of one or two operands (30_encoding.md R85). -/

namespace Sys2Proof.Machine

/-! ### Characters -/

/-- A character an operand keeps as it is: no letter to lower, no blank, no comma. -/
def plainChar (c : Char) : Bool := lowerChar c == c && !isBlankChar c && c != ','

/-- The character of every digit value is plain and is read back. -/
theorem digitChar_spec {b v : Nat} (hb : b ≤ 16) (hv : v < b) :
    plainChar v.digitChar = true ∧ digitValue b v.digitChar = some v := by
  have : v < 16 := by omega
  constructor
  · interval_cases v <;> decide
  · unfold digitValue
    interval_cases v <;> simp_all [Nat.digitChar]

theorem plainChar_of_mem_toDigits {b n : Nat} (h1 : 1 < b) (hb : b ≤ 16) : ∀ c ∈ Nat.toDigits b n, plainChar c = true := by
  induction n using Nat.strongRecOn with
  | ind n ih =>
    by_cases h : n < b
    · rw [Nat.toDigits_of_lt_base h]
      simp [(digitChar_spec hb h).1]
    · rw [Nat.toDigits_of_base_le h1 (by omega)]
      intro c hc
      rcases List.mem_append.mp hc with hc | hc
      · exact ih _ (Nat.div_lt_self (by omega) h1) c hc
      · rw [List.mem_singleton.mp hc]
        exact (digitChar_spec hb (Nat.mod_lt _ (by omega))).1

/-! ### Numerals -/

theorem digitsValue_append (b acc : Nat) (xs ys : List Char) :
    digitsValue b acc (xs ++ ys) = (digitsValue b acc xs).bind (fun v => digitsValue b v ys) := by
  induction xs generalizing acc with
  | nil => rfl
  | cons x xs ih =>
    simp only [List.cons_append, digitsValue]
    cases digitValue b x with
    | none => rfl
    | some v => exact ih _

/-- The digits of a number in base 2 to 16 are read as the number. -/
theorem digitsValue_toDigits {b : Nat} (h1 : 1 < b) (hb : b ≤ 16) (n : Nat) :
    digitsValue b 0 (Nat.toDigits b n) = some n := by
  induction n using Nat.strongRecOn with
  | ind n ih =>
    by_cases h : n < b
    · simp [Nat.toDigits_of_lt_base h, digitsValue, (digitChar_spec hb h).2]
    · have hm := (digitChar_spec hb (Nat.mod_lt n (by omega))).2
      rw [Nat.toDigits_of_base_le h1 (by omega), digitsValue_append, ih _ (Nat.div_lt_self (by omega) h1)]
      simp only [Option.bind_some, digitsValue, hm]
      rw [Nat.div_add_mod']

theorem toDigits_ne_nil {b : Nat} (h1 : 1 < b) (n : Nat) : Nat.toDigits b n ≠ [] := by
  by_cases h : n < b
  · simp [Nat.toDigits_of_lt_base h]
  · simp [Nat.toDigits_of_base_le h1 (Nat.le_of_not_lt h)]

theorem numeral_toDigits {b : Nat} (h1 : 1 < b) (hb : b ≤ 16) (n : Nat) : numeral b (Nat.toDigits b n) = some n := by
  have h := digitsValue_toDigits h1 hb n
  cases hd : Nat.toDigits b n with
  | nil => exact absurd hd (toDigits_ne_nil h1 n)
  | cons c cs => rwa [hd] at h

/-- A text read as decimal does not begin with `0x`. -/
theorem numeral_zero_x (cs : List Char) : numeral 10 ('0' :: 'x' :: cs) = none := rfl

/-- A text read as decimal does not begin with a minus. -/
theorem numeral_minus (cs : List Char) : numeral 10 ('-' :: cs) = none := rfl

theorem unsignedOperand_decimal (n : Nat) : unsignedOperand (Nat.toDigits 10 n) = some n := by
  have h := numeral_toDigits (b := 10) (by decide) (by decide) n
  unfold unsignedOperand
  split
  · rename_i cs heq
    rw [heq, numeral_zero_x] at h
    cases h
  · exact h

theorem boolOperand_decimal (n : Nat) :
    boolOperand (Nat.toDigits 10 n) = if n = 0 then some false else if n = 1 then some true else none := by
  by_cases h0 : n = 0
  · subst h0; rfl
  by_cases h1 : n = 1
  · subst h1; rfl
  have h := numeral_toDigits (b := 10) (by decide) (by decide) n
  have hne : ∀ t, numeral 10 t ≠ some n → Nat.toDigits 10 n ≠ t := fun t ht he => ht (he ▸ h)
  simp only [boolOperand, h0, h1, if_false]
  rw [if_neg, if_neg]
  · rintro (h | h)
    · exact hne _ (by simp [numeral, digitsValue, digitValue]; omega) h
    · exact hne _ (by simp [numeral, digitsValue, digitValue]) h
  · rintro (h | h)
    · exact hne _ (by simp [numeral, digitsValue, digitValue]; omega) h
    · exact hne _ (by simp [numeral, digitsValue, digitValue]) h

theorem brOperand_decimal (n : Nat) : brOperand (Nat.toDigits 10 n) = some (n : Int) := by
  have h := numeral_toDigits (b := 10) (by decide) (by decide) n
  unfold brOperand
  split
  · rename_i cs heq
    rw [heq, numeral_zero_x] at h
    cases h
  · rename_i cs heq
    rw [heq, numeral_minus] at h
    cases h
  · rw [h]; rfl

/-- A decimal integer, with its sign, is read as the integer. -/
theorem brOperand_toString (br : Int) : brOperand (toString br).toList = some br := by
  have hs : toString br = br.repr := rfl
  rw [hs, Int.repr_eq_if]
  split
  · rename_i h
    rw [Nat.toList_repr, brOperand_decimal, Int.toNat_of_nonneg h]
  · rename_i h
    rw [String.toList_append, Nat.toList_repr]
    change (numeral 10 (Nat.toDigits 10 (-br).toNat)).map (fun v : Nat => -(v : Int)) = some br
    rw [numeral_toDigits (by decide) (by decide), Option.map_some]
    congr 1
    omega

/-- Raw hexadecimal bits of a brightness (R85). -/
theorem brOperand_hex (v : Nat) :
    brOperand ('0' :: 'x' :: Nat.toDigits 16 v) = if v < 256 then some (BitVec.ofNat 8 v).toInt else none := by
  simp only [brOperand, numeral_toDigits (b := 16) (by decide) (by decide)]

/-! ### Lines -/

/-- Characters of an operand, of which there is at least one. -/
structure PlainText (x : List Char) : Prop where
  plain : ∀ c ∈ x, plainChar c = true
  ne    : x ≠ []

theorem plainText_toDigits {b : Nat} (h1 : 1 < b) (hb : b ≤ 16) (n : Nat) : PlainText (Nat.toDigits b n) :=
  ⟨plainChar_of_mem_toDigits h1 hb, toDigits_ne_nil h1 n⟩

theorem PlainText.cons {x : List Char} (h : PlainText x) {c : Char} (hc : plainChar c = true) : PlainText (c :: x) :=
  ⟨by
    intro d hd
    rcases List.mem_cons.mp hd with rfl | hd
    · exact hc
    · exact h.plain d hd, by simp⟩

theorem plainText_toString_int (br : Int) : PlainText (toString br).toList := by
  have hs : toString br = br.repr := rfl
  rw [hs, Int.repr_eq_if]
  split
  · rw [Nat.toList_repr]; exact plainText_toDigits (by decide) (by decide) _
  · rw [String.toList_append, Nat.toList_repr]
    exact (plainText_toDigits (by decide) (by decide) _).cons (c := '-') (by decide)

theorem PlainText.lower {x : List Char} (h : PlainText x) : x.map lowerChar = x := by
  have : ∀ c ∈ x, lowerChar c = c := fun c hc => by
    have := h.plain c hc
    simp only [plainChar, Bool.and_eq_true, beq_iff_eq] at this
    exact this.1.1
  rw [List.map_congr_left this, List.map_id']

theorem PlainText.not_blank {x : List Char} (h : PlainText x) : ∀ c ∈ x, isBlankChar c = false := fun c hc => by
  have := h.plain c hc
  simp only [plainChar, Bool.and_eq_true, Bool.not_eq_true', beq_iff_eq] at this
  exact this.1.2

theorem PlainText.not_comma {x : List Char} (h : PlainText x) : ∀ c ∈ x, (c == ',') = false := fun c hc => by
  have := h.plain c hc
  simp only [plainChar, Bool.and_eq_true, bne_iff_ne, ne_eq] at this
  simpa using this.2

/-- Text whose first and last characters are no blanks is kept whole. -/
theorem trimBlanks_of_ends (x m y : List Char) (hx : PlainText x) (hy : PlainText y) :
    trimBlanks (x ++ m ++ y) = x ++ m ++ y := by
  have drop_ne : ∀ z w : List Char, PlainText z → (z ++ w).dropWhile isBlankChar = z ++ w := by
    intro z w hz
    cases z with
    | nil => exact absurd rfl hz.ne
    | cons c cs => simp [hz.not_blank c (by simp)]
  have hy' : PlainText y.reverse := ⟨fun c hc => hy.plain c (by simpa using hc), by simpa using hy.ne⟩
  unfold trimBlanks
  rw [List.append_assoc, drop_ne x _ hx, List.reverse_append, List.reverse_append, List.append_assoc,
    drop_ne _ _ hy']
  simp

theorem trimBlanks_plain {x : List Char} (hx : PlainText x) : trimBlanks x = x := by
  cases x with
  | nil => exact absurd rfl hx.ne
  | cons c cs =>
    unfold trimBlanks
    have h1 : (c :: cs).dropWhile isBlankChar = c :: cs := by
      simp [hx.not_blank c (by simp)]
    have h2 : ((c :: cs).reverse).dropWhile isBlankChar = (c :: cs).reverse := by
      cases hr : (c :: cs).reverse with
      | nil => simp at hr
      | cons d ds =>
        have : d ∈ c :: cs := by
          rw [← List.mem_reverse, hr]; simp
        simp [hx.not_blank d this]
    rw [h1, h2, List.reverse_reverse]

theorem trimBlanks_blank_plain {x : List Char} (hx : PlainText x) : trimBlanks (' ' :: x) = x := by
  have : trimBlanks (' ' :: x) = trimBlanks x := rfl
  rw [this, trimBlanks_plain hx]

theorem splitCommas_plain {x : List Char} (hx : ∀ c ∈ x, (c == ',') = false) : splitCommas x = [x] := by
  induction x with
  | nil => rfl
  | cons c cs ih =>
    simp [splitCommas, ih (fun d hd => hx d (by simp [hd])), hx c (by simp)]

theorem splitCommas_two {x y : List Char} (hx : ∀ c ∈ x, (c == ',') = false) (hy : ∀ c ∈ y, (c == ',') = false) :
    splitCommas (x ++ ',' :: y) = [x, y] := by
  induction x with
  | nil => simp [splitCommas, splitCommas_plain hy]
  | cons c cs ih =>
    simp [splitCommas, ih (fun d hd => hx d (by simp [hd])), hx c (by simp)]

theorem takeWhile_not_blank {m : List Char} (hm : ∀ c ∈ m, isBlankChar c = false) (w : List Char) :
    (m ++ ' ' :: w).takeWhile (fun c => !isBlankChar c) = m ∧
      (m ++ ' ' :: w).dropWhile (fun c => !isBlankChar c) = ' ' :: w := by
  induction m with
  | nil => exact ⟨rfl, rfl⟩
  | cons c cs ih =>
    have h := ih (fun d hd => hm d (by simp [hd]))
    simp [hm c (by simp), h]

/-- A line of a mnemonic, a blank and one operand. -/
theorem assembleChars_one (m x : List Char) (hm : PlainText (m.map lowerChar)) (hx : PlainText x) :
    assembleChars (m ++ ' ' :: x) = asmLine (m.map lowerChar) [x] := by
  have hl : (m ++ ' ' :: x).map lowerChar = m.map lowerChar ++ ' ' :: x := by
    rw [List.map_append, List.map_cons, hx.lower]; rfl
  have ht : trimBlanks (m.map lowerChar ++ ' ' :: x) = m.map lowerChar ++ ' ' :: x := by
    simpa using trimBlanks_of_ends (m.map lowerChar) [' '] x hm hx
  obtain ⟨h1, h2⟩ := takeWhile_not_blank hm.not_blank x
  simp only [assembleChars, hl, ht, h1, h2, operandsOf, trimBlanks_blank_plain hx, if_neg hx.ne]
  have hs : splitCommas (' ' :: x) = [' ' :: x] :=
    splitCommas_plain (by
      intro c hc
      rcases List.mem_cons.mp hc with rfl | hc
      · rfl
      · exact hx.not_comma c hc)
  rw [hs, List.map_singleton, trimBlanks_blank_plain hx]

/-- A line of a mnemonic, a blank and two operands with a comma and a blank between them. -/
theorem assembleChars_two (m x y : List Char) (hm : PlainText (m.map lowerChar)) (hx : PlainText x) (hy : PlainText y) :
    assembleChars (m ++ ' ' :: (x ++ ',' :: ' ' :: y)) = asmLine (m.map lowerChar) [x, y] := by
  have hl : (m ++ ' ' :: (x ++ ',' :: ' ' :: y)).map lowerChar = m.map lowerChar ++ ' ' :: (x ++ ',' :: ' ' :: y) := by
    simp only [List.map_append, List.map_cons, hx.lower, hy.lower]; rfl
  have ht : trimBlanks (m.map lowerChar ++ ' ' :: (x ++ ',' :: ' ' :: y)) =
      m.map lowerChar ++ ' ' :: (x ++ ',' :: ' ' :: y) := by
    simpa using trimBlanks_of_ends (m.map lowerChar) (' ' :: (x ++ [',', ' '])) y hm hy
  obtain ⟨h1, h2⟩ := takeWhile_not_blank hm.not_blank (x ++ ',' :: ' ' :: y)
  have hs : splitCommas (' ' :: (x ++ ',' :: ' ' :: y)) = [' ' :: x, ' ' :: y] := by
    refine splitCommas_two (x := ' ' :: x) (y := ' ' :: y) ?_ ?_
    · intro c hc
      rcases List.mem_cons.mp hc with rfl | hc
      · rfl
      · exact hx.not_comma c hc
    · intro c hc
      rcases List.mem_cons.mp hc with rfl | hc
      · rfl
      · exact hy.not_comma c hc
  have hne : trimBlanks (' ' :: (x ++ ',' :: ' ' :: y)) ≠ [] := by
    have h0 : trimBlanks (' ' :: (x ++ ',' :: ' ' :: y)) = trimBlanks (x ++ ',' :: ' ' :: y) := rfl
    have h3 : trimBlanks (x ++ ',' :: ' ' :: y) = x ++ ',' :: ' ' :: y := by
      simpa using trimBlanks_of_ends x [',', ' '] y hx hy
    rw [h0, h3]; simp
  simp only [assembleChars, hl, ht, h1, h2, operandsOf, if_neg hne, hs, List.map_cons, List.map_nil,
    trimBlanks_blank_plain hx, trimBlanks_blank_plain hy]

/-! ### Accepted instructions -/

/-- A range check lets the instruction through or refuses it. -/
theorem ifInRange_cases {i j : Instr} (h : ifInRange i = .ok j) : j = i ∧ i.wf = true := by
  unfold ifInRange at h
  split at h <;> simp_all

theorem asm0_ok {i j : Instr} {ops : List (List Char)} (h : asm0 i ops = .ok j) : j = i ∧ i.wf = true := by
  unfold asm0 at h
  split at h
  · exact ifInRange_cases h
  · cases h

theorem asm1_ok {α : Type} {f : List Char → Option α} {mk : α → Instr} {ops : List (List Char)} {j : Instr}
    (h : asm1 f mk ops = .ok j) : ∃ a, j = mk a ∧ j.wf = true := by
  unfold asm1 at h
  split at h
  · split at h
    · rename_i a _
      obtain ⟨rfl, hw⟩ := ifInRange_cases h
      exact ⟨a, rfl, hw⟩
    · cases h
  · cases h

theorem asm2_ok {α β : Type} {f : List Char → Option α} {g : List Char → Option β} {mk : α → β → Instr}
    {ops : List (List Char)} {j : Instr} (h : asm2 f g mk ops = .ok j) : ∃ a b, j = mk a b ∧ j.wf = true := by
  unfold asm2 at h
  split at h
  · split at h
    · rename_i a b _ _
      obtain ⟨rfl, hw⟩ := ifInRange_cases h
      exact ⟨a, b, rfl, hw⟩
    · cases h
  · cases h

/-- Only host commands assemble, and only well-formed ones (R85). -/
theorem asmLine_ok {m : List Char} {ops : List (List Char)} {j : Instr} (h : asmLine m ops = .ok j) :
    j.wf = true ∧ ∃ cw, encode j = .command cw := by
  unfold asmLine at h
  repeat' split at h
  · obtain ⟨a, b, rfl, hw⟩ := asm2_ok h; exact ⟨hw, _, rfl⟩
  · obtain ⟨a, rfl, hw⟩ := asm1_ok h; exact ⟨hw, _, rfl⟩
  · obtain ⟨a, rfl, hw⟩ := asm1_ok h; exact ⟨hw, _, rfl⟩
  · obtain ⟨a, b, rfl, hw⟩ := asm2_ok h; exact ⟨hw, _, rfl⟩
  · obtain ⟨a, rfl, hw⟩ := asm1_ok h; exact ⟨hw, _, rfl⟩
  · obtain ⟨rfl, hw⟩ := asm0_ok h; exact ⟨hw, _, rfl⟩
  · obtain ⟨rfl, hw⟩ := asm0_ok h; exact ⟨hw, _, rfl⟩
  · obtain ⟨rfl, hw⟩ := asm0_ok h; exact ⟨hw, _, rfl⟩
  · obtain ⟨a, rfl, hw⟩ := asm1_ok h; exact ⟨hw, _, rfl⟩
  · cases h

/-- The word of a well-formed command decodes back to it. -/
theorem decodeCommand_of_encode {i : Instr} {cw : Word} (hw : i.wf = true) (hc : encode i = .command cw) :
    decodeCommand cw = .ok i := by
  have hd : decode (encode i) = .ok i := by
    cases i with
    | init en br => exact Laws.DecodeEncode.init _ _ hw
    | enable on => exact Laws.DecodeEncode.enable _ hw
    | setbr br => exact Laws.DecodeEncode.setbr _ hw
    | digit p d => exact Laws.DecodeEncode.digit _ _ hw
    | colon on => exact Laws.DecodeEncode.colon _ hw
    | clear => exact Laws.DecodeEncode.clear hw
    | dataCmdFixed => exact Laws.DecodeEncode.dataCmdFixed hw
    | addrSet p => exact Laws.DecodeEncode.addrSet _ hw
    | dispCtrl on br => exact Laws.DecodeEncode.dispCtrl _ _ hw
    | segData b => exact Laws.DecodeEncode.segData _ hw
  rw [hc] at hd; exact hd

/-- A line of text with one operand. -/
theorem assembleChars_text_one (pre t : String) (m x : List Char) (hp : pre.toList = m ++ [' ']) (ht : t.toList = x)
    (hm : PlainText (m.map lowerChar)) (hx : PlainText x) :
    assembleChars (pre ++ t).toList = asmLine (m.map lowerChar) [x] := by
  rw [String.toList_append, hp, ht, List.append_assoc]
  exact assembleChars_one m x hm hx

/-- A line of text with two operands. -/
theorem assembleChars_text_two (pre t u : String) (m x y : List Char) (hp : pre.toList = m ++ [' '])
    (ht : t.toList = x) (hu : u.toList = y) (hm : PlainText (m.map lowerChar)) (hx : PlainText x) (hy : PlainText y) :
    assembleChars (pre ++ t ++ ", " ++ u).toList = asmLine (m.map lowerChar) [x, y] := by
  rw [String.toList_append, String.toList_append, String.toList_append, hp, ht, hu,
    ← assembleChars_two m x y hm hx hy]
  simp

end Sys2Proof.Machine
end

