-- ==== Sys2Proof/Laws/State.lean ====
section
/-! SUPPORT. Each field after each update of the state. -/

namespace Sys2Proof.Machine

@[simp] theorem emit_cfgOn (e : WireEvent) (s : State) : (emit e s).cfgOn = s.cfgOn := rfl
@[simp] theorem emit_cfgBr (e : WireEvent) (s : State) : (emit e s).cfgBr = s.cfgBr := rfl
@[simp] theorem emit_segcache (e : WireEvent) (s : State) : (emit e s).segcache = s.segcache := rfl
@[simp] theorem emit_segTable (e : WireEvent) (s : State) : (emit e s).segTable = s.segTable := rfl
@[simp] theorem emit_initDone (e : WireEvent) (s : State) : (emit e s).initDone = s.initDone := rfl
@[simp] theorem emit_fault (e : WireEvent) (s : State) : (emit e s).fault = s.fault := rfl
@[simp] theorem emit_result (e : WireEvent) (s : State) : (emit e s).result = s.result := rfl
@[simp] theorem emit_busy (e : WireEvent) (s : State) : (emit e s).busy = s.busy := rfl
@[simp] theorem emit_pins (e : WireEvent) (s : State) : (emit e s).pins = s.pins.apply e := rfl
@[simp] theorem emit_trace (e : WireEvent) (s : State) : (emit e s).trace = s.trace ++ [e] := rfl
@[simp] theorem emit_txQueue (e : WireEvent) (s : State) : (emit e s).txQueue = s.txQueue := rfl
@[simp] theorem emit_uops (e : WireEvent) (s : State) : (emit e s).uops = s.uops := rfl
@[simp] theorem emit_segNext (e : WireEvent) (s : State) : (emit e s).segNext = s.segNext := rfl
@[simp] theorem emit_acks (e : WireEvent) (s : State) : (emit e s).acks = s.acks := rfl
@[simp] theorem emit_inputs (e : WireEvent) (s : State) : (emit e s).inputs = s.inputs := rfl
@[simp] theorem emit_reads (e : WireEvent) (s : State) : (emit e s).reads = s.reads := rfl
@[simp] theorem emit_draws (e : WireEvent) (s : State) : (emit e s).draws = s.draws := rfl
@[simp] theorem emit_drawCount (e : WireEvent) (s : State) : (emit e s).drawCount = s.drawCount := rfl

@[simp] theorem sampleDio_cfgOn (s : State) : (sampleDio s).cfgOn = s.cfgOn := rfl
@[simp] theorem sampleDio_cfgBr (s : State) : (sampleDio s).cfgBr = s.cfgBr := rfl
@[simp] theorem sampleDio_segcache (s : State) : (sampleDio s).segcache = s.segcache := rfl
@[simp] theorem sampleDio_segTable (s : State) : (sampleDio s).segTable = s.segTable := rfl
@[simp] theorem sampleDio_initDone (s : State) : (sampleDio s).initDone = s.initDone := rfl
@[simp] theorem sampleDio_fault (s : State) : (sampleDio s).fault = s.fault := rfl
@[simp] theorem sampleDio_result (s : State) : (sampleDio s).result = s.result := rfl
@[simp] theorem sampleDio_busy (s : State) : (sampleDio s).busy = s.busy := rfl
@[simp] theorem sampleDio_pins (s : State) : (sampleDio s).pins = s.pins := rfl
@[simp] theorem sampleDio_trace (s : State) : (sampleDio s).trace = s.trace ++ [.sample (drawDio s)] := rfl
@[simp] theorem sampleDio_txQueue (s : State) : (sampleDio s).txQueue = s.txQueue := rfl
@[simp] theorem sampleDio_uops (s : State) : (sampleDio s).uops = s.uops := rfl
@[simp] theorem sampleDio_segNext (s : State) : (sampleDio s).segNext = s.segNext := rfl
@[simp] theorem sampleDio_acks (s : State) : (sampleDio s).acks = s.acks ++ [drawDio s] := rfl
@[simp] theorem sampleDio_inputs (s : State) : (sampleDio s).inputs = s.inputs := rfl
@[simp] theorem sampleDio_reads (s : State) : (sampleDio s).reads = s.reads := rfl
@[simp] theorem sampleDio_draws (s : State) : (sampleDio s).draws = s.draws.tail := rfl
@[simp] theorem sampleDio_drawCount (s : State) : (sampleDio s).drawCount = s.drawCount + 1 := rfl

@[simp] theorem raise_cfgOn (c : FaultCode) (s : State) : (raise c s).cfgOn = s.cfgOn := rfl
@[simp] theorem raise_cfgBr (c : FaultCode) (s : State) : (raise c s).cfgBr = s.cfgBr := rfl
@[simp] theorem raise_segcache (c : FaultCode) (s : State) : (raise c s).segcache = s.segcache := rfl
@[simp] theorem raise_segTable (c : FaultCode) (s : State) : (raise c s).segTable = s.segTable := rfl
@[simp] theorem raise_initDone (c : FaultCode) (s : State) : (raise c s).initDone = s.initDone := rfl
@[simp] theorem raise_fault (c : FaultCode) (s : State) : (raise c s).fault = c := rfl
@[simp] theorem raise_result (c : FaultCode) (s : State) : (raise c s).result = s.result := rfl
@[simp] theorem raise_busy (c : FaultCode) (s : State) : (raise c s).busy = s.busy := rfl
@[simp] theorem raise_pins (c : FaultCode) (s : State) : (raise c s).pins = s.pins := rfl
@[simp] theorem raise_trace (c : FaultCode) (s : State) : (raise c s).trace = s.trace := rfl
@[simp] theorem raise_txQueue (c : FaultCode) (s : State) : (raise c s).txQueue = s.txQueue := rfl
@[simp] theorem raise_uops (c : FaultCode) (s : State) : (raise c s).uops = s.uops := rfl
@[simp] theorem raise_segNext (c : FaultCode) (s : State) : (raise c s).segNext = s.segNext := rfl
@[simp] theorem raise_acks (c : FaultCode) (s : State) : (raise c s).acks = s.acks := rfl
@[simp] theorem raise_inputs (c : FaultCode) (s : State) : (raise c s).inputs = s.inputs := rfl
@[simp] theorem raise_reads (c : FaultCode) (s : State) : (raise c s).reads = s.reads := rfl
@[simp] theorem raise_draws (c : FaultCode) (s : State) : (raise c s).draws = s.draws := rfl
@[simp] theorem raise_drawCount (c : FaultCode) (s : State) : (raise c s).drawCount = s.drawCount := rfl

@[simp] theorem accept_cfgOn (s : State) : (accept s).cfgOn = s.cfgOn := rfl
@[simp] theorem accept_cfgBr (s : State) : (accept s).cfgBr = s.cfgBr := rfl
@[simp] theorem accept_segcache (s : State) : (accept s).segcache = s.segcache := rfl
@[simp] theorem accept_segTable (s : State) : (accept s).segTable = s.segTable := rfl
@[simp] theorem accept_initDone (s : State) : (accept s).initDone = s.initDone := rfl
@[simp] theorem accept_fault (s : State) : (accept s).fault = s.fault := rfl
@[simp] theorem accept_result (s : State) : (accept s).result = s.result := rfl
@[simp] theorem accept_busy (s : State) : (accept s).busy = true := rfl
@[simp] theorem accept_pins (s : State) : (accept s).pins = s.pins := rfl
@[simp] theorem accept_trace (s : State) : (accept s).trace = s.trace := rfl
@[simp] theorem accept_txQueue (s : State) : (accept s).txQueue = s.txQueue := rfl
@[simp] theorem accept_uops (s : State) : (accept s).uops = s.uops := rfl
@[simp] theorem accept_segNext (s : State) : (accept s).segNext = s.segNext := rfl
@[simp] theorem accept_acks (s : State) : (accept s).acks = [] := rfl
@[simp] theorem accept_inputs (s : State) : (accept s).inputs = s.inputs := rfl
@[simp] theorem accept_reads (s : State) : (accept s).reads = s.reads := rfl
@[simp] theorem accept_draws (s : State) : (accept s).draws = s.draws := rfl
@[simp] theorem accept_drawCount (s : State) : (accept s).drawCount = s.drawCount := rfl

@[simp] theorem complete_cfgOn (s : State) : (complete s).cfgOn = s.cfgOn := rfl
@[simp] theorem complete_cfgBr (s : State) : (complete s).cfgBr = s.cfgBr := rfl
@[simp] theorem complete_segcache (s : State) : (complete s).segcache = s.segcache := rfl
@[simp] theorem complete_segTable (s : State) : (complete s).segTable = s.segTable := rfl
@[simp] theorem complete_initDone (s : State) : (complete s).initDone = s.initDone := rfl
@[simp] theorem complete_fault (s : State) : (complete s).fault = s.fault := rfl
@[simp] theorem complete_result (s : State) : (complete s).result = packResult s.acks := rfl
@[simp] theorem complete_busy (s : State) : (complete s).busy = false := rfl
@[simp] theorem complete_pins (s : State) : (complete s).pins = s.pins := rfl
@[simp] theorem complete_trace (s : State) : (complete s).trace = s.trace := rfl
@[simp] theorem complete_txQueue (s : State) : (complete s).txQueue = s.txQueue := rfl
@[simp] theorem complete_uops (s : State) : (complete s).uops = s.uops := rfl
@[simp] theorem complete_segNext (s : State) : (complete s).segNext = s.segNext := rfl
@[simp] theorem complete_acks (s : State) : (complete s).acks = [] := rfl
@[simp] theorem complete_inputs (s : State) : (complete s).inputs = s.inputs := rfl
@[simp] theorem complete_reads (s : State) : (complete s).reads = s.reads := rfl
@[simp] theorem complete_draws (s : State) : (complete s).draws = s.draws := rfl
@[simp] theorem complete_drawCount (s : State) : (complete s).drawCount = s.drawCount := rfl

@[simp] theorem platformReset_cfgOn (s : State) : (platformReset s).cfgOn = false := rfl
@[simp] theorem platformReset_cfgBr (s : State) : (platformReset s).cfgBr = 0 := rfl
@[simp] theorem platformReset_segcache (s : State) : (platformReset s).segcache = 0xFF := rfl
@[simp] theorem platformReset_segTable (s : State) : (platformReset s).segTable = s.segTable := rfl
@[simp] theorem platformReset_initDone (s : State) : (platformReset s).initDone = false := rfl
@[simp] theorem platformReset_fault (s : State) : (platformReset s).fault = .noFault := rfl
@[simp] theorem platformReset_result (s : State) : (platformReset s).result = 0 := rfl
@[simp] theorem platformReset_busy (s : State) : (platformReset s).busy = false := rfl
@[simp] theorem platformReset_pins (s : State) : (platformReset s).pins = State.reset.pins := rfl
@[simp] theorem platformReset_trace (s : State) : (platformReset s).trace = [] := rfl
@[simp] theorem platformReset_txQueue (s : State) : (platformReset s).txQueue = [] := rfl
@[simp] theorem platformReset_uops (s : State) : (platformReset s).uops = [] := rfl
@[simp] theorem platformReset_segNext (s : State) : (platformReset s).segNext = false := rfl
@[simp] theorem platformReset_acks (s : State) : (platformReset s).acks = [] := rfl
@[simp] theorem platformReset_inputs (s : State) : (platformReset s).inputs = s.inputs := rfl
@[simp] theorem platformReset_reads (s : State) : (platformReset s).reads = s.reads := rfl
@[simp] theorem platformReset_draws (s : State) : (platformReset s).draws = s.draws := rfl
@[simp] theorem platformReset_drawCount (s : State) : (platformReset s).drawCount = s.drawCount := rfl

end Sys2Proof.Machine
end

