-- ==== Sys2Proof/Laws/Ops.lean ====
section
/-! SUPPORT. One law per shared operation: everything it does to the state. -/

namespace Sys2Proof.Machine

/-! ### Events -/

@[simp] theorem applyAll_nil (p : Pins) : p.applyAll [] = p := rfl

@[simp] theorem applyAll_cons (p : Pins) (e : WireEvent) (es : List WireEvent) :
    p.applyAll (e :: es) = (p.apply e).applyAll es := rfl

@[simp] theorem applyAll_append (p : Pins) (es fs : List WireEvent) :
    p.applyAll (es ++ fs) = (p.applyAll es).applyAll fs := by
  simp [Pins.applyAll]

/-- Emitting a list: the pins and the trace, nothing else. -/
theorem emitAll_eq (es : List WireEvent) (s : State) :
    emitAll es s = { s with pins := s.pins.applyAll es, trace := s.trace ++ es } := by
  induction es generalizing s with
  | nil => simp [emitAll]
  | cons e es ih => simp [emitAll, ih, emit]

/-- A data clock leaves CLK high and its bit on DIO, whatever came before (40_transport.md R106). -/
theorem applyAll_bitEvents (p : Pins) (b : Bool) :
    p.applyAll (bitEvents b) = { p with clkOut := true, dioOut := b } := rfl

/-- Data clocks never change a pin's direction. -/
theorem applyAll_bits_dirs (bs : List Bool) (p : Pins) :
    (p.applyAll (bs.flatMap bitEvents)).clkDir = p.clkDir ∧ (p.applyAll (bs.flatMap bitEvents)).dioDir = p.dioDir := by
  induction bs generalizing p with
  | nil => simp
  | cons b bs ih => simpa [List.flatMap_cons, applyAll_bitEvents] using ih { p with clkOut := true, dioOut := b }

/-- The pins when XFER samples (R107): CLK low, DIO an input with its latch at 1. -/
theorem applyAll_data_ackOpen (p : Pins) (v : Byte) :
    p.applyAll (dataEvents v ++ ackOpenEvents) =
      { clkDir := p.clkDir, clkOut := false, dioDir := .input, dioOut := true } := by
  have h : (p.applyAll (dataEvents v)).clkDir = p.clkDir := (applyAll_bits_dirs (wireBits v) p).1
  rw [applyAll_append, ← h]
  generalize p.applyAll (dataEvents v) = q
  rfl

/-! ### Transport -/

/-- The events of XFER(v) when the sample is `a` (40_transport.md R106, R107). -/
def xferEvents (v : Byte) (a : Bool) : List WireEvent :=
  dataEvents v ++ ackOpenEvents ++ .sample a :: ((if a then [.driveDioLow] else []) ++ ackCloseEvents)

/-- START: the pins and the trace (R102). -/
theorem start_eq (s : State) :
    start s = { s with pins := { s.pins with clkOut := true, dioOut := false }, trace := s.trace ++ startEvents } := by
  simp [start, emitAll_eq]; rfl

/-- STOP: the pins and the trace (R104). -/
theorem stop_eq (s : State) :
    stop s = { s with pins := { s.pins with clkOut := true, dioOut := true }, trace := s.trace ++ stopEvents } := by
  simp [stop, emitAll_eq]; rfl

/-- The poll: one draw taken and returned, DIO driven low on a 1 (R107, R108). -/
theorem pollAck_eq (s : State) :
    pollAck s = { s with
      pins := if drawDio s then { s.pins with dioDir := .output, dioOut := false } else s.pins,
      trace := s.trace ++ .sample (drawDio s) :: (if drawDio s then [.driveDioLow] else []),
      draws := s.draws.tail, drawCount := s.drawCount + 1, acks := s.acks ++ [drawDio s] } := by
  unfold pollAck
  cases h : drawDio s <;> simp [sampleDio, emit, Pins.apply, h]

/-- XFER: the events, the line state of R110, one draw taken and returned (R108). -/
theorem xfer_eq (v : Byte) (s : State) :
    xfer v s = { s with
      pins := { s.pins with clkOut := false, dioDir := .output, dioOut := !drawDio s },
      trace := s.trace ++ xferEvents v (drawDio s),
      draws := s.draws.tail, drawCount := s.drawCount + 1, acks := s.acks ++ [drawDio s] } := by
  have hd : drawDio (emitAll (dataEvents v ++ ackOpenEvents) s) = drawDio s := by simp [emitAll_eq, drawDio]
  rw [xfer, pollAck_eq, hd, emitAll_eq, emitAll_eq, applyAll_data_ackOpen]
  cases drawDio s <;> simp [xferEvents, Pins.apply, ackCloseEvents]

/-! ### Draws -/

@[simp] theorem nextDraws_length (n : Nat) (s : State) : (s.nextDraws n).length = n := by
  simp [State.nextDraws]

theorem nextDraws_one (s : State) : s.nextDraws 1 = [drawDio s] := by
  cases h : s.draws <;> simp [State.nextDraws, State.drawAt, drawDio, h]

theorem drawAt_eq_drawDio (s t : State) (k : Nat) (hd : t.draws = s.draws.drop k) (hc : t.drawCount = s.drawCount + k) :
    drawDio t = s.drawAt k := by
  cases h : s.draws.drop k with
  | nil =>
    have : s.draws[k]? = none := by simpa using h
    simp [drawDio, State.drawAt, hd, hc, h, this]
  | cons a as =>
    have : s.draws[k]? = some a := by
      have := congrArg (·[0]?) h
      simpa using this
    simp [drawDio, State.drawAt, hd, h, this]

/-! ### Protocol -/

/-- The events of a one-byte frame (41_protocol.md R130). -/
def cmdEvents (b : Byte) (a : Bool) : List WireEvent := startEvents ++ xferEvents b a ++ stopEvents

/-- SEND_CMD: the frame's events, both lines high afterwards, one draw taken (R130). -/
theorem sendCmd_eq (b : Byte) (s : State) :
    sendCmd b s = { s with
      pins := { s.pins with clkOut := true, dioDir := .output, dioOut := true },
      trace := s.trace ++ cmdEvents b (s.drawAt 0),
      draws := s.draws.drop 1, drawCount := s.drawCount + 1, acks := s.acks ++ [s.drawAt 0] } := by
  have h : drawDio (start s) = s.drawAt 0 := drawAt_eq_drawDio s _ 0 (by simp [start_eq]) (by simp [start_eq])
  rw [sendCmd, stop_eq, xfer_eq, h, start_eq]
  simp [cmdEvents]

/-- SEND_CFG: both fields, then SEND_CMD of the byte that carries them (R131). -/
theorem sendCfg_eq (en : Bool) (br : Int) (s : State) :
    sendCfg en br s = { s with
      cfgOn := en, cfgBr := clampBr br,
      pins := { s.pins with clkOut := true, dioDir := .output, dioOut := true },
      trace := s.trace ++ cmdEvents (dispCtrlByte en (clampBr br)) (s.drawAt 0),
      draws := s.draws.drop 1, drawCount := s.drawCount + 1, acks := s.acks ++ [s.drawAt 0] } := by
  simp [sendCfg, sendCmd_eq, State.drawAt]

/-- The events of WRITE_SEG, in the order of R133 and R134. -/
def segEvents (pos : Nat) (seg : Byte) (a b c : Bool) : List WireEvent :=
  cmdEvents dataCmdByte a ++ (startEvents ++ xferEvents (addrByte pos) b ++ xferEvents seg c ++ stopEvents)

/-- WRITE_SEG: the two frames' events, both lines high afterwards, three draws taken (R133). -/
theorem writeSeg_eq (pos : Nat) (seg : Byte) (s : State) :
    writeSeg pos seg s = { s with
      pins := { s.pins with clkOut := true, dioDir := .output, dioOut := true },
      trace := s.trace ++ segEvents pos seg (s.drawAt 0) (s.drawAt 1) (s.drawAt 2),
      draws := s.draws.drop 3, drawCount := s.drawCount + 3,
      acks := s.acks ++ [s.drawAt 0, s.drawAt 1, s.drawAt 2] } := by
  rw [writeSeg, stop_eq, xfer_eq, xfer_eq, start_eq, sendCmd_eq]
  rw [drawAt_eq_drawDio s _ 1 (by simp) (by simp), drawAt_eq_drawDio s _ 2 (by simp [-List.drop_one]) (by simp)]
  simp [segEvents, ← List.drop_one]

/-! ### The checks and the envelope -/

/-- A ready engine accepts every command but INIT (42_display.md R150). -/
theorem hostCommand_ready (body : State → State) {s : State} (h : s.Ready) :
    hostCommand false body s = .next (complete (body (accept s))) := by
  simp [hostCommand, commandGate, portGate, h.fault, h.quiet.busy, h.initDone, Gate.run]

/-- A fresh engine accepts INIT. -/
theorem hostCommand_fresh (body : State → State) {s : State} (h : s.Fresh) :
    hostCommand true body s = .next (complete (body (accept s))) := by
  simp [hostCommand, commandGate, portGate, h.fault, h.quiet.busy, h.initDone, Gate.run]

/-- Everything the envelope can do: stop halted, raise one of three codes, or run the body (R150, 60_exceptions.md
R203). -/
theorem hostCommand_cases (isInit : Bool) (body : State → State) (s : State) :
    (s.fault ≠ .noFault ∧ hostCommand isInit body s = .fault .halted) ∨
    (s.fault = .noFault ∧ s.busy = true ∧ hostCommand isInit body s = .next (raise .busy s)) ∨
    (s.fault = .noFault ∧ s.busy = false ∧ isInit = false ∧ s.initDone = false ∧
      hostCommand isInit body s = .next (raise .uninit s)) ∨
    (s.fault = .noFault ∧ s.busy = false ∧ isInit = true ∧ s.initDone = true ∧
      hostCommand isInit body s = .next (raise .reinit s)) ∨
    (s.fault = .noFault ∧ s.busy = false ∧ s.initDone = !isInit ∧
      hostCommand isInit body s = .next (complete (body (accept s)))) := by
  by_cases hf : s.fault = .noFault <;> cases hb : s.busy <;> cases isInit <;> cases hi : s.initDone <;>
    simp [hostCommand, commandGate, portGate, Gate.run, hf, hb, hi]

/-- Everything a byte of the running command can do. -/
theorem sequencerStep_cases (body : State → State) (s : State) :
    (s.fault ≠ .noFault ∧ sequencerStep body s = .fault .halted) ∨
    (s.fault = .noFault ∧ sequencerStep body s = .next (body s)) := by
  by_cases hf : s.fault = .noFault <;> simp [sequencerStep, hf]

/-- Everything an illegal word can do (30_encoding.md R74). -/
theorem illegalWord_cases (s : State) :
    (s.fault ≠ .noFault ∧ illegalWord s = .fault .halted) ∨
    (s.fault = .noFault ∧ s.busy = true ∧ illegalWord s = .next (raise .busy s)) ∨
    (s.fault = .noFault ∧ s.busy = false ∧ illegalWord s = .next (raise .illegal s)) := by
  by_cases hf : s.fault = .noFault <;> cases hb : s.busy <;> simp [illegalWord, portGate, Gate.run, hf, hb]

/-! ### CLEAR -/

/-- The events of CLEAR's four WRITE_SEG calls (42_display.md R156), the draws in order. -/
def clearEvents (d : Nat → Bool) : List WireEvent :=
  segEvents 0 0 (d 0) (d 1) (d 2) ++ segEvents 1 0 (d 3) (d 4) (d 5) ++
    segEvents 2 0 (d 6) (d 7) (d 8) ++ segEvents 3 0 (d 9) (d 10) (d 11)

/-- The draws after `k` draws are taken. -/
theorem drawAt_after (s t : State) (k j : Nat) (hd : t.draws = s.draws.drop k) (hc : t.drawCount = s.drawCount + k) :
    t.drawAt j = s.drawAt (k + j) := by
  simp only [State.drawAt, hd, hc, List.getElem?_drop, Nat.add_assoc]

/-- CLEAR's body: eight frames, both lines high afterwards, twelve draws taken; no register (R156). -/
theorem blankAll_eq (s : State) :
    blankAll (List.range Config.nPos) s = { s with
      pins := { s.pins with clkOut := true, dioDir := .output, dioOut := true },
      trace := s.trace ++ clearEvents s.drawAt,
      draws := s.draws.drop 12, drawCount := s.drawCount + 12,
      acks := s.acks ++ (List.range 12).map s.drawAt } := by
  have h1 (j) := drawAt_after s (writeSeg 0 0 s) 3 j (by simp [writeSeg_eq]) (by simp [writeSeg_eq])
  have h2 (j) := drawAt_after s (writeSeg 1 0 (writeSeg 0 0 s)) 6 j (by simp [writeSeg_eq]) (by simp [writeSeg_eq])
  have h3 (j) := drawAt_after s (writeSeg 2 0 (writeSeg 1 0 (writeSeg 0 0 s))) 9 j (by simp [writeSeg_eq])
    (by simp [writeSeg_eq])
  have hr : List.range Config.nPos = [0, 1, 2, 3] := by decide
  have hm : (List.range 12).map s.drawAt = [s.drawAt 0, s.drawAt 1, s.drawAt 2, s.drawAt 3, s.drawAt 4, s.drawAt 5,
    s.drawAt 6, s.drawAt 7, s.drawAt 8, s.drawAt 9, s.drawAt 10, s.drawAt 11] := rfl
  simp only [hr, hm, blankAll]
  rw [writeSeg_eq 3, h3, h3, h3, writeSeg_eq 2, h2, h2, h2, writeSeg_eq 1, h1, h1, h1, writeSeg_eq 0]
  simp [clearEvents]

/-! ### Operands and flags -/

/-- Clamped brightness as a number (41_protocol.md R131). -/
theorem toNat_clampBr (br : Int) : (clampBr br).toNat = (min (max br 0) 7).toNat := by
  simp only [clampBr, clamp, Config.brMax, BitVec.toNat_ofNat]; omega

/-- A stored brightness is not changed by the clamp. -/
@[simp] theorem clampBr_toNat (b : BitVec 3) : clampBr (b.toNat : Int) = b := by
  apply BitVec.eq_of_toNat_eq
  have := b.isLt
  rw [toNat_clampBr]; omega

/-- "Clamping twice gives the same result as clamping once" (42_display.md R153). -/
@[simp] theorem clampBr_clamp (br : Int) : clampBr (clamp br 0 Config.brMax) = clampBr br := by
  apply BitVec.eq_of_toNat_eq
  rw [toNat_clampBr, toNat_clampBr]
  simp only [clamp, Config.brMax]; omega

theorem bitsToNat_lt (bs : List Bool) : bitsToNat bs < 2 ^ bs.length := by
  induction bs with
  | nil => simp [bitsToNat]
  | cons b bs ih => cases b <;> simp [bitsToNat, Nat.pow_succ] <;> omega

/-- RESULT as a number (10_state.md R28). -/
theorem toNat_packResult (acks : List Bool) (h : acks.length ≤ 12) :
    (packResult acks).toNat = acks.length * 4096 + bitsToNat acks := by
  have h2 : bitsToNat acks < 4096 :=
    lt_of_lt_of_le (bitsToNat_lt acks) (Nat.pow_le_pow_right (by decide) h)
  have h1 : (packResult acks).toNat = (BitVec.ofNat 4 acks.length ++ BitVec.ofNat 12 (bitsToNat acks)).toNat := rfl
  rw [h1, BitVec.toNat_append, ← Nat.shiftLeft_add_eq_or_of_lt (BitVec.isLt _), Nat.shiftLeft_eq,
    BitVec.toNat_ofNat, BitVec.toNat_ofNat]
  omega

end Sys2Proof.Machine
end

