-- ==== Sys2Proof/Laws/Micro.lean ====
section
/-! SUPPORT. The micro-operations of the finer model against the procedures of the atomic one. -/

namespace Sys2Proof.Machine

/-! ### Micro-operations run the procedures -/

theorem runOps_append (xs ys : List MicroOp) (s : State) : runOps (xs ++ ys) s = runOps ys (runOps xs s) := by
  induction xs generalizing s with
  | nil => rfl
  | cons x xs ih => simp [runOps, ih]

theorem runOps_emits (es : List WireEvent) (s : State) : runOps (es.map .emit) s = emitAll es s := by
  induction es generalizing s with
  | nil => rfl
  | cons e es ih => simp [runOps, runOp, emitAll, ih]

theorem runOps_startOps (s : State) : runOps startOps s = start s := runOps_emits _ _

theorem runOps_stopOps (s : State) : runOps stopOps s = stop s := runOps_emits _ _

theorem runOps_xferOps (v : Byte) (s : State) : runOps (xferOps v) s = xfer v s := by
  simp only [xferOps, runOps_append, runOps_emits, runOps, runOp]; rfl

/-! ### The sequencer's own fields pass through the procedures -/

/-- `s` with other contents in the micro-sequencer. -/
def requeue (q : List Byte) (u : List MicroOp) (n : Bool) (s : State) : State :=
  { s with txQueue := q, uops := u, segNext := n }

theorem requeue_requeue (q q' : List Byte) (u u' : List MicroOp) (n n' : Bool) (s : State) :
    requeue q u n (requeue q' u' n' s) = requeue q u n s := rfl

theorem start_requeue (q : List Byte) (u : List MicroOp) (n : Bool) (s : State) :
    start (requeue q u n s) = requeue q u n (start s) := by
  simp only [start_eq]; rfl

theorem stop_requeue (q : List Byte) (u : List MicroOp) (n : Bool) (s : State) :
    stop (requeue q u n s) = requeue q u n (stop s) := by
  simp only [stop_eq]; rfl

theorem xfer_requeue (q : List Byte) (u : List MicroOp) (n : Bool) (v : Byte) (s : State) :
    xfer v (requeue q u n s) = requeue q u n (xfer v s) := by
  simp only [xfer_eq]; rfl

/-! ### Runs of micro-steps -/

theorem microRun_add (m n : Nat) (s t : State) (h : microRun m s = .next t) :
    microRun (m + n) s = microRun n t := by
  induction m generalizing s with
  | zero => simp only [microRun, Host.Outcome.next.injEq] at h; subst h; simp
  | succ m ih =>
    rw [Nat.succ_add]
    simp only [microRun] at h ⊢
    cases hs : microStep s <;> simp [hs] at h ⊢
    exact ih _ h

theorem microRun_one {s t : State} (h : microStep s = .next t) : microRun 1 s = .next t := by
  simp [microRun, h]

/-- The engine left to itself with operations pending reaches the state the atomic model's `runOps` gives. -/
theorem microRun_ops (ops : List MicroOp) (s : State) (hi : s.inputs = []) (hb : s.busy = true)
    (hf : s.fault = .noFault) (hu : s.uops = ops) :
    ∃ n, microRun n s = .next (runOps ops { s with uops := [] }) := by
  induction ops generalizing s with
  | nil =>
    refine ⟨0, ?_⟩
    obtain ⟨⟩ := s
    simp only at hu
    subst hu
    rfl
  | cons op ops ih =>
    have h1 : microStep s = .next (microOp op ops s) := by simp [microStep, hi, microSlot, hf, hb, hu]
    cases op with
    | emit e =>
      obtain ⟨n, hn⟩ := ih (microOp (.emit e) ops s) hi hb hf rfl
      exact ⟨1 + n, (microRun_add 1 n _ _ (microRun_one h1)).trans hn⟩
    | poll =>
      have hd' : drawDio { s with uops := [] } = drawDio s := rfl
      cases hd : drawDio s with
      | true =>
        have h2 : microStep (microOp .poll ops s) =
            .next (microOp (.emit .driveDioLow) ops (microOp .poll ops s)) := by
          simp [microStep, microSlot, microOp, hi, hf, hb, hd]
        obtain ⟨n, hn⟩ := ih (microOp (.emit .driveDioLow) ops (microOp .poll ops s)) hi hb hf rfl
        refine ⟨1 + (1 + n), (microRun_add 1 _ _ _ (microRun_one h1)).trans
          ((microRun_add 1 n _ _ (microRun_one h2)).trans (hn.trans ?_))⟩
        simp only [runOps, runOp, pollAck, hd', hd]
        rfl
      | false =>
        obtain ⟨n, hn⟩ := ih (microOp .poll ops s) hi hb hf (by simp [microOp, hd])
        refine ⟨1 + n, (microRun_add 1 n _ _ (microRun_one h1)).trans (hn.trans ?_)⟩
        simp only [runOps, runOp, pollAck, hd', hd]
        rfl

/-- The engine left to itself with a byte pending sends the byte. -/
theorem microRun_byte (b : Byte) (bs : List Byte) (i : Instr) (s : State) (hi : s.inputs = []) (hb : s.busy = true)
    (hf : s.fault = .noFault) (hu : s.uops = []) (ht : s.txQueue = b :: bs) (hd : decode (nextCode s b) = .ok i) :
    ∃ n, microRun n s = .next (runOps (wireOps i) (requeue bs [] (opensSegment i) s)) := by
  have h1 : microStep s = .next (requeue bs (wireOps i) (opensSegment i) s) := by
    simp only [nextCode] at hd
    simp [microStep, hi, microSlot, hf, hb, hu, ht, loadByte, nextCode, hd, requeue]
  obtain ⟨n, hn⟩ := microRun_ops (wireOps i) (requeue bs (wireOps i) (opensSegment i) s) hi hb hf rfl
  exact ⟨1 + n, (microRun_add 1 n _ _ (microRun_one h1)).trans hn⟩

/-- The engine left to itself with nothing pending completes its command. -/
theorem microRun_complete (s : State) (hi : s.inputs = []) (hb : s.busy = true) (hf : s.fault = .noFault)
    (hu : s.uops = []) (ht : s.txQueue = []) : microRun 1 s = .next (complete s) :=
  microRun_one (by simp [microStep, hi, microSlot, hf, hb, hu, ht])

end Sys2Proof.Machine
end

