-- ==== Sys2Proof/Laws/Monitor.lean ====
section
/-! SUPPORT. What a bus monitor reads off the events of each procedure. -/

namespace Sys2Proof.Machine

@[simp] theorem watch_nil (m : Monitor) : m.watch [] = m := rfl

@[simp] theorem watch_cons (m : Monitor) (e : WireEvent) (es : List WireEvent) :
    m.watch (e :: es) = (m.see e).watch es := rfl

@[simp] theorem watch_append (m : Monitor) (es fs : List WireEvent) :
    m.watch (es ++ fs) = (m.watch es).watch fs := by
  simp [Monitor.watch]

/-- A byte is what its wire bits say, least significant first (20_memory.md R53). -/
theorem byte_of_wireBits (v : Byte) : BitVec.ofNat 8 (bitsToNat (wireBits v)) = v := by
  revert v; decide

/-- One data clock in an open frame: the monitor takes its bit. -/
theorem watch_bitEvents (m : Monitor) (bytes : List Byte) (b : Bool) (hf : m.frame = some bytes)
    (hc : m.pins.clkDir = .output) (hd : m.pins.dioDir = .output) (hb : m.bits.length < 8) :
    m.watch (bitEvents b) =
      { m with pins := { m.pins with clkOut := true, dioOut := b }, bits := m.bits ++ [b] } := by
  obtain ⟨⟨cd, co, dd, d⟩, fr, bits, frs⟩ := m
  simp only at hf hc hd hb
  subst hf hc hd
  cases co <;> cases d <;> cases b <;>
    simp [bitEvents, Monitor.see, Pins.apply, isStop, clkRises, clkHigh, Pins.clkLevel, Pins.dioLevel, hb]

/-- Several data clocks in an open frame. -/
theorem watch_bits (bs : List Bool) (m : Monitor) (bytes : List Byte) (hf : m.frame = some bytes)
    (hc : m.pins.clkDir = .output) (hd : m.pins.dioDir = .output) (hb : m.bits.length + bs.length ≤ 8) :
    (m.watch (bs.flatMap bitEvents)).bits = m.bits ++ bs ∧
    (m.watch (bs.flatMap bitEvents)).frame = some bytes ∧
    (m.watch (bs.flatMap bitEvents)).frames = m.frames ∧
    (m.watch (bs.flatMap bitEvents)).pins = m.pins.applyAll (bs.flatMap bitEvents) := by
  induction bs generalizing m with
  | nil => simp [hf]
  | cons b bs ih =>
    simp only [List.length_cons] at hb
    have h1 := watch_bitEvents m bytes b hf hc hd (by omega)
    simp only [List.flatMap_cons, watch_append, h1, applyAll_append, applyAll_bitEvents]
    have := ih { m with pins := { m.pins with clkOut := true, dioOut := b }, bits := m.bits ++ [b] } hf hc hd
      (by simp; omega)
    simpa using this

/-- XFER in an open frame: the monitor takes the byte and nothing else (40_transport.md R106, R107, R109). -/
theorem watch_xferEvents (m : Monitor) (bytes : List Byte) (v : Byte) (a : Bool) (hf : m.frame = some bytes)
    (hb : m.bits = []) (hc : m.pins.clkDir = .output) (hd : m.pins.dioDir = .output) :
    m.watch (xferEvents v a) =
      { m with pins := { m.pins with clkOut := false, dioOut := !a }, frame := some (bytes ++ [v]) } := by
  obtain ⟨h1, h2, h3, h4⟩ := watch_bits (wireBits v) m bytes hf hc hd (by simp [hb, wireBits])
  have hdirs := applyAll_bits_dirs (wireBits v) m.pins
  rw [← h4] at hdirs
  rw [hb, List.nil_append] at h1
  obtain ⟨hdc, hdd⟩ := hdirs
  have hv := byte_of_wireBits v
  have hl : (wireBits v).length = 8 := rfl
  rw [← h1] at hv hl
  simp only [xferEvents, watch_append, dataEvents]
  generalize m.watch ((wireBits v).flatMap bitEvents) = n at *
  obtain ⟨⟨cd, co, dd, d⟩, fr, bits, frs⟩ := n
  obtain ⟨⟨mcd, mco, mdd, md⟩, mfr, mbits, mfrs⟩ := m
  simp only at hb hf hc hd h2 h3 hdc hdd hv hl
  subst hb hf hc hd h2 h3 hdc hdd
  cases a <;> cases co <;> cases d <;>
    simp [ackOpenEvents, ackCloseEvents, Monitor.see, Pins.apply, isStop, clkRises, clkHigh, Pins.clkLevel,
      Pins.dioLevel, hl, hv]

/-- START on idle lines opens a frame (R103). -/
theorem watch_startEvents (m : Monitor) (hf : m.frame = none) (hp : m.pins = Pins.idle) :
    m.watch startEvents =
      { m with pins := { Pins.idle with dioOut := false }, frame := some [], bits := [] } := by
  obtain ⟨p, fr, bits, frs⟩ := m
  simp only at hf hp
  subst hf hp
  rfl

/-- STOP after an XFER closes the frame (R105). -/
theorem watch_stopEvents (m : Monitor) (bytes : List Byte) (hf : m.frame = some bytes) (hb : m.bits = [])
    (hc : m.pins.clkDir = .output) (hk : m.pins.clkOut = false) (hd : m.pins.dioDir = .output) :
    m.watch stopEvents =
      { pins := Pins.idle, frame := none, bits := [], frames := m.frames ++ [bytes] } := by
  obtain ⟨⟨cd, co, dd, d⟩, fr, bits, frs⟩ := m
  simp only at hf hb hc hk hd
  subst hf hb hc hk hd
  cases d <;>
    simp [stopEvents, Monitor.see, Pins.apply, isStop, clkRises, clkHigh, Pins.clkLevel, Pins.dioLevel, Pins.idle]

/-- SEND_CMD puts one one-byte frame on the wires and leaves the monitor at rest (41_protocol.md R130). -/
theorem watch_cmdEvents (m : Monitor) (b : Byte) (a : Bool) (h : m.AtRest) :
    m.watch (cmdEvents b a) = { m with frames := m.frames ++ [[b]] } := by
  obtain ⟨p, fr, bits, frs⟩ := m
  obtain ⟨hf, hb, hp⟩ := h
  simp only at hf hb hp
  subst hf hb hp
  simp only [cmdEvents, watch_append]
  rw [watch_startEvents _ rfl rfl, watch_xferEvents _ [] b a rfl rfl rfl rfl,
    watch_stopEvents _ [b] rfl rfl rfl rfl rfl]

/-- WRITE_SEG puts its two frames on the wires, the data command first (R133, R134). -/
theorem watch_segEvents (m : Monitor) (pos : Nat) (seg : Byte) (a b c : Bool) (h : m.AtRest) :
    m.watch (segEvents pos seg a b c) = { m with frames := m.frames ++ [[dataCmdByte], [addrByte pos, seg]] } := by
  obtain ⟨p, fr, bits, frs⟩ := m
  have h' := h
  obtain ⟨hf, hb, hp⟩ := h
  simp only at hf hb hp
  subst hf hb hp
  simp only [segEvents, watch_append]
  rw [watch_cmdEvents _ _ _ h', watch_startEvents _ rfl rfl, watch_xferEvents _ [] _ b rfl rfl rfl rfl,
    watch_xferEvents _ [addrByte pos] _ c rfl rfl rfl rfl, watch_stopEvents _ [addrByte pos, seg] rfl rfl rfl rfl rfl]
  simp

/-! ### Frames and samples of the step lists -/

@[simp] theorem samplesOf_append (es fs : List WireEvent) : samplesOf (es ++ fs) = samplesOf es ++ samplesOf fs := by
  simp [samplesOf]

theorem samplesOf_bits (bs : List Bool) : samplesOf (bs.flatMap bitEvents) = [] := by
  induction bs with
  | nil => rfl
  | cons b bs ih => rw [List.flatMap_cons, samplesOf_append, ih]; rfl

theorem samplesOf_xferEvents (v : Byte) (a : Bool) : samplesOf (xferEvents v a) = [a] := by
  simp only [xferEvents, samplesOf_append, dataEvents, samplesOf_bits]; cases a <;> rfl

theorem samplesOf_cmdEvents (b : Byte) (a : Bool) : samplesOf (cmdEvents b a) = [a] := by
  simp only [cmdEvents, samplesOf_append, samplesOf_xferEvents]; rfl

theorem samplesOf_segEvents (pos : Nat) (seg : Byte) (a b c : Bool) :
    samplesOf (segEvents pos seg a b c) = [a, b, c] := by
  simp only [segEvents, samplesOf_append, samplesOf_xferEvents, samplesOf_cmdEvents]; rfl

theorem samplesOf_clearEvents (d : Nat → Bool) : samplesOf (clearEvents d) = (List.range 12).map d := by
  simp only [clearEvents, samplesOf_append, samplesOf_segEvents]; rfl

@[simp] theorem delaysOf_append (es fs : List WireEvent) : delaysOf (es ++ fs) = delaysOf es + delaysOf fs := by
  simp [delaysOf]

theorem delaysOf_bits (bs : List Bool) : delaysOf (bs.flatMap bitEvents) = 2 * bs.length := by
  induction bs with
  | nil => rfl
  | cons b bs ih => rw [List.flatMap_cons, delaysOf_append, ih]; cases b <;> simp [bitEvents, delaysOf] <;> omega

theorem length_bits (bs : List Bool) : (bs.flatMap bitEvents).length = 5 * bs.length := by
  induction bs with
  | nil => rfl
  | cons b bs ih => rw [List.flatMap_cons, List.length_append, ih]; simp [bitEvents]; omega

/-- The counts of XFER (40_transport.md R114). -/
theorem counts_xferEvents (v : Byte) (a : Bool) :
    (xferEvents v a).length = 51 + a.toNat ∧ delaysOf (xferEvents v a) = 20 := by
  have hl : (wireBits v).length = 8 := rfl
  constructor
  · simp only [xferEvents, dataEvents, List.length_append, length_bits, hl]
    cases a <;> rfl
  · simp only [xferEvents, dataEvents, delaysOf_append, delaysOf_bits, hl]
    cases a <;> rfl

/-- The counts of SEND_CMD and WRITE_SEG (41_protocol.md R135). -/
theorem counts_cmdEvents (b : Byte) (a : Bool) :
    (cmdEvents b a).length = 62 + a.toNat ∧ delaysOf (cmdEvents b a) = 24 := by
  obtain ⟨h1, h2⟩ := counts_xferEvents b a
  constructor
  · simp only [cmdEvents, List.length_append, h1, startEvents, stopEvents, List.length_cons, List.length_nil]; omega
  · simp only [cmdEvents, delaysOf_append, h2]; rfl

theorem counts_segEvents (pos : Nat) (seg : Byte) (a b c : Bool) :
    (segEvents pos seg a b c).length = 175 + (a.toNat + b.toNat + c.toNat) ∧
      delaysOf (segEvents pos seg a b c) = 68 := by
  obtain ⟨h1, h2⟩ := counts_cmdEvents dataCmdByte a
  obtain ⟨h3, h4⟩ := counts_xferEvents (addrByte pos) b
  obtain ⟨h5, h6⟩ := counts_xferEvents seg c
  constructor
  · simp only [segEvents, List.length_append, h1, h3, h5, startEvents, stopEvents, List.length_cons, List.length_nil]
    omega
  · simp only [segEvents, delaysOf_append, h2, h4, h6]; rfl

theorem attach_idle_atRest : (Monitor.attach Pins.idle).AtRest := ⟨rfl, rfl, rfl⟩

/-- A monitor at rest stays at rest when only its record of frames changes. -/
theorem Monitor.AtRest.withFrames {m : Monitor} (h : m.AtRest) (fs : List (List Byte)) :
    Monitor.AtRest { m with frames := fs } := ⟨h.frame, h.bits, h.pins⟩

theorem framesFrom_cmdEvents (b : Byte) (a : Bool) : framesFrom Pins.idle (cmdEvents b a) = [[b]] := by
  rw [framesFrom, watch_cmdEvents _ _ _ attach_idle_atRest]; rfl

theorem framesFrom_segEvents (pos : Nat) (seg : Byte) (a b c : Bool) :
    framesFrom Pins.idle (segEvents pos seg a b c) = [[dataCmdByte], [addrByte pos, seg]] := by
  rw [framesFrom, watch_segEvents _ _ _ _ _ _ attach_idle_atRest]; rfl

/-- CLEAR's eight frames (42_display.md R156). -/
theorem watch_clearEvents (m : Monitor) (d : Nat → Bool) (h : m.AtRest) :
    m.watch (clearEvents d) = { m with frames := m.frames ++
      [[dataCmdByte], [addrByte 0, 0], [dataCmdByte], [addrByte 1, 0], [dataCmdByte], [addrByte 2, 0],
       [dataCmdByte], [addrByte 3, 0]] } := by
  simp only [clearEvents, watch_append]
  rw [watch_segEvents _ _ _ _ _ _ h, watch_segEvents _ _ _ _ _ _ (h.withFrames _),
    watch_segEvents _ _ _ _ _ _ (h.withFrames _), watch_segEvents _ _ _ _ _ _ (h.withFrames _)]
  simp

/-- ConfigureLines leaves any monitor without an open frame at idle lines, and shows it no START (42_display.md R151). -/
theorem see_configureLines (m : Monitor) (hf : m.frame = none) :
    m.see .configureLines = { m with pins := Pins.idle } := by
  obtain ⟨⟨cd, co, dd, d⟩, fr, bits, frs⟩ := m
  simp only at hf
  subst hf
  cases cd <;> cases co <;> cases dd <;> cases d <;> rfl

end Sys2Proof.Machine
end

