-- ==== Sys2Proof/Tests/Slice0.lean ====
section
/-! SUPPORT. The model's own tests: expected values are the spec's (the file 95_test_vectors.md unless another is
named), or written out by hand from its tables. Then one witness for every statement that has hypotheses. -/

namespace Sys2Proof.Tests

open Sys2Proof Sys2Proof.Machine

set_option maxRecDepth 100000

/-! ### WellFormed refuses what no word can hold (30_encoding.md R85, R78, R79) -/

theorem test_wf_init_br_above : (Instr.init true 128).wf = false := by decide
theorem test_wf_init_br_below : (Instr.init true (-129)).wf = false := by decide
theorem test_wf_setbr_br_above : (Instr.setbr 128).wf = false := by decide
theorem test_wf_setbr_br_below : (Instr.setbr (-129)).wf = false := by decide
theorem test_wf_digit_pos : (Instr.digit 16 0).wf = false := by decide
theorem test_wf_digit_digit : (Instr.digit 0 256).wf = false := by decide
theorem test_wf_addrSet_pos : (Instr.addrSet 4).wf = false := by decide
theorem test_wf_dispCtrl_br : (Instr.dispCtrl true 8).wf = false := by decide
theorem test_wf_bounds_accepted :
    (Instr.init false (-128)).wf ∧ (Instr.setbr 127).wf ∧ (Instr.digit 15 255).wf ∧ (Instr.addrSet 3).wf ∧
      (Instr.dispCtrl false 7).wf := by decide

/-! ### Decoding: one word per constructor, bit by bit from 30_encoding.md R72, R77–R80 -/

theorem test_decode_init : decodeTableWord 16 0b0001000111110110 = some (.init true (-10)) := by decide
theorem test_decode_enable : decodeTableWord 16 0b0010000100000000 = some (.enable true) := by decide
theorem test_decode_setbr : decodeTableWord 16 0b0011000010000000 = some (.setbr (-128)) := by decide
theorem test_decode_digit : decodeTableWord 16 0b0100110100000101 = some (.digit 13 5) := by decide
theorem test_decode_colon : decodeTableWord 16 0b0101000000000000 = some (.colon false) := by decide
theorem test_decode_clear : decodeTableWord 16 0b0110000000000000 = some .clear := by decide
theorem test_decode_dataCmdFixed : decodeTableWord 8 0b01000100 = some .dataCmdFixed := by decide
theorem test_decode_addrSet : decodeTableWord 8 0b11000011 = some (.addrSet 3) := by decide
theorem test_decode_dispCtrl : decodeTableWord 8 0b10000110 = some (.dispCtrl false 6) := by decide
theorem test_decode_segData : decodeTableWord 8 0b01011011 = some (.segData 0x5B) := by decide

/-- R80: the place in the frame identifies a segment byte, not its value. -/
theorem test_decode_place_of_byte :
    decode (.second 0x44) = .ok (.segData 0x44) ∧ decode (.first 0x44) = .ok .dataCmdFixed ∧
      decode (.first 0x40) = .error .notACommandByte ∧ decode (.first 0xC4) = .error .notACommandByte := by decide

/-- The illegal words of 2.4 and 2.5: a reserved OP, or a reserved bit set. -/
theorem test_decode_illegal_words :
    [0x0000#16, 0x7000#16, 0xF123#16, 0xFFFF#16].map decodeCommand = List.replicate 4 (.error .reservedOp) ∧
    [0x1207#16, 0x2001#16, 0x2200#16, 0x3100#16, 0x5001#16, 0x5200#16, 0x6001#16, 0x6100#16].map decodeCommand =
      List.replicate 8 (.error .reservedField) := by decide

/-- 30_encoding.md R87. -/
theorem test_encode_worked_words :
    [Instr.init true 7, .init false (-10), .enable false, .setbr 9, .setbr (-1), .digit 1 4, .digit 0 10, .digit 5 4,
      .colon true, .clear].map (fun i => (encode i).toNat) =
    [0x1107, 0x10F6, 0x2000, 0x3009, 0x30FF, 0x4104, 0x400A, 0x4504, 0x5100, 0x6000] := by decide

/-- R85, R86: the assembler. -/
theorem test_assemble_lines :
    assemble "INIT 1, 7" = .ok (.command 0x1107) ∧ assemble "digit 0x0F,10" = .ok (.command 0x4F0A) ∧
    assemble "SETBR -1" = .ok (.command 0x30FF) ∧ assemble "setbr 0xFF" = .ok (.command 0x30FF) ∧
    assemble "COLON on" = .ok (.command 0x5100) ∧ assemble "OFF" = .ok (.command 0x2000) ∧
    assemble "BLANK 1" = .ok (.command 0x410A) := by decide

/-- R85: "An operand outside the accepted range is an assembly error". -/
theorem test_assemble_out_of_range :
    assemble "SETBR 128" = .error .badOperand ∧ assemble "DIGIT 16, 0" = .error .badOperand ∧
    assemble "DIGIT 0, 256" = .error .badOperand ∧ assemble "SETBR 0x100" = .error .badOperand ∧
    assemble "CLEAR 1" = .error .operandCount := by decide

/-! ### Instructions: one step each -/

/-- The next state of an outcome, if there is one. -/
def nextOf : Host.Outcome State Fault Refusal → Option State
  | .next t => some t
  | .fault _ => none
  | .refused _ => none

/-- What 95_test_vectors.md tabulates of a step from `s`: frames, event count, RESULT, STATUS. -/
def row (s : State) (o : Host.Outcome State Fault Refusal) : Option (List (List Byte) × Nat × Word × Word) :=
  (nextOf o).map fun t =>
    let evs := t.trace.drop s.trace.length
    (framesFrom s.pins evs, evs.length, t.result, t.status)

/-- A ready engine with the given registers, its draws given, and a trace of its own. -/
def readyWith (on : Bool) (br : BitVec 3) (cache : Byte) (draws : List Bool) : State :=
  { State.reset with
    cfgOn := on, cfgBr := br, segcache := cache, initDone := true, pins := Pins.idle, trace := [.delay],
    draws := draws }

/-- V18: `INIT 0, -10`. -/
theorem test_init_clamps_negative :
    let s : State := { State.reset with draws := [true] }
    row s (exec (.init false (-10)) s) = some ([[0x80]], 64, 0x1001, 0xFF10) := by decide

/-- V14: `INIT 1, 8`, with a draw of 0. -/
theorem test_init_clamps_above :
    let s : State := { State.reset with draws := [false] }
    row s (exec (.init true 8) s) = some ([[0x8F]], 63, 0x1000, 0xFF1F) := by decide

/-- Program 1, step 2: `ENABLE 0` keeps the brightness. -/
theorem test_enable_keeps_brightness :
    let s := readyWith true 7 0xFF [true]
    row s (exec (.enable false) s) = some ([[0x87]], 63, 0x1001, 0xFF17) := by decide

/-- 42_display.md R153, the example: `SETBR 9` with CFG_ON = 0. -/
theorem test_setbr_keeps_off :
    let s := readyWith false 0 0xFF [true]
    row s (exec (.setbr 9) s) = some ([[0x87]], 63, 0x1001, 0xFF17) := by decide

/-- V5: `SETBR -128`. -/
theorem test_setbr_most_negative :
    let s := readyWith true 7 0xFF [true]
    row s (exec (.setbr (-128)) s) = some ([[0x88]], 63, 0x1001, 0xFF18) := by decide

/-- V38: `DIGIT 1, 4` with the colon set; V53: the draws 1, 0, 1. -/
theorem test_digit_merges_colon :
    let s := readyWith true 7 0xFF [true, false, true]
    row s (exec (.digit 1 4) s) = some ([[0x44], [0xC1, 0xE6]], 177, 0x3005, 0xE61F) := by decide

/-- V36: `DIGIT 5, 4` reaches `0xC1` without the colon and without SEGCACHE. -/
theorem test_digit_aliased_position :
    let s := readyWith true 7 0xFF [true, true, true]
    row s (exec (.digit 5 4) s) = some ([[0x44], [0xC1, 0x66]], 178, 0x3007, 0xFF1F) := by decide

/-- V39: `COLON 0` at SEGCACHE = `0xE6`. -/
theorem test_colon_clears :
    let s := readyWith true 7 0xE6 [true, true, true]
    row s (exec (.colon false) s) = some ([[0x44], [0xC1, 0x66]], 178, 0x3007, 0x661F) := by decide

/-- 42_display.md R155, the example: `COLON 1` at SEGCACHE = `0x4F`. -/
theorem test_colon_sets :
    let s := readyWith true 7 0x4F [true, true, true]
    row s (exec (.colon true) s) = some ([[0x44], [0xC1, 0xCF]], 178, 0x3007, 0xCF1F) := by decide

/-- V51: CLEAR with the draws 1, 0, 1, 0, …: RESULT, and SEGCACHE kept. -/
theorem test_clear_alternating_draws :
    let s := readyWith true 7 0xCF ((List.range 12).map (fun k => k % 2 == 0))
    (nextOf (exec .clear s)).map (fun t => (t.result, t.status)) = some (0xC555, 0xCF1F) := by decide

/-- P-rows of 2.2 and R79: the display-control byte alone. -/
theorem test_dispCtrl_frame :
    let s := readyWith false 0 0xFF [false]
    row s (exec (.dispCtrl true 5) s) = some ([[0x8D]], 62, 0x0000, 0xFF1D) := by decide

/-- 41_protocol.md R130: the data command's frame. -/
theorem test_dataCmdFixed_frame :
    let s := readyWith true 7 0xFF [true]
    row s (exec .dataCmdFixed s) = some ([[0x44]], 63, 0x0000, 0xFF1F) := by decide

/-- 41_protocol.md R133, P-12: an address byte and the segment byte after it make one frame. -/
theorem test_addrSet_then_segData_frame :
    let s := readyWith true 7 0xFF [true, false]
    (nextOf (exec (.addrSet 0) s)).bind (fun t => row s (exec (.segData 0x66) t)) =
      some ([[0xC0, 0x66]], 114, 0x0000, 0xFF1F) := by decide

/-- R110: after an address byte with draw 0, CLK is low and DIO high, both outputs. -/
theorem test_addrSet_line_state :
    let s := readyWith true 7 0xFF [false]
    (nextOf (exec (.addrSet 2) s)).map (·.pins) =
      some { clkDir := .output, clkOut := false, dioDir := .output, dioOut := true } := by decide

/-- Reset, with draws of 1 to come. -/
def fresh : State := { State.reset with draws := List.replicate 13 true }

/-- The engine after `INIT 1, 7`, all draws 1 (V19). -/
def booted : State := (nextOf (exec (.init true 7) fresh)).getD State.reset

/-- The table row of one word written to CMD. -/
def wordRow (s : State) (w : Word) : Option (List (List Byte) × Nat × Word × Word) :=
  row s (step { s with inputs := [.write w] })

/-- F1, F7, F11: STATUS and RESULT after a fault, and no event. -/
theorem test_faults_from_reset :
    [0x2100#16, 0x7000#16, 0x2001#16].map (wordRow State.reset) =
      [some ([], 0, 0x0000, 0xFF20), some ([], 0, 0x0000, 0xFF60), some ([], 0, 0x0000, 0xFF60)] := by decide

/-- F6: a second INIT keeps RESULT. -/
theorem test_second_init_faults : wordRow booted 0x1107 = some ([], 0, 0x1001, 0xFF5F) := by decide

/-! ### Witnesses: concrete states and operands that meet each statement's hypotheses -/

/-- The engine in the middle of `DIGIT 0, 5`: the data command's frame is closed, the address byte comes next. -/
def midCommand : State := { booted with busy := true, txQueue := [0xC0, 0x6D], acks := [true] }

/-- A halted engine. -/
def haltedState : State := { booted with fault := .illegal }

theorem quiet_reset : State.reset.Quiet := by constructor <;> decide
theorem fresh_reset : State.reset.Fresh := ⟨quiet_reset, by decide, by decide⟩
theorem quiet_booted : booted.Quiet := by constructor <;> decide
theorem ready_booted : booted.Ready := ⟨quiet_booted, by decide, by decide, by decide⟩
theorem ready_with : (readyWith true 7 0x4F [true, true, true]).Ready :=
  ⟨⟨by decide, by decide, by decide, by decide, by decide⟩, by decide, by decide, by decide⟩
theorem inv_booted : booted.Inv where
  quiet := quiet_booted
  table := by decide
  noBusyFault := by decide
  result := by decide
  beforeInit := by decide
  idle := by decide
  noUninit := by decide
  framesClosed := fun _ => ⟨by decide, by decide, by decide⟩
  frameShapes := by decide
  config := by decide

/-- The outcome is a next state. -/
def isNext (o : Host.Outcome State Fault Refusal) : Bool := (nextOf o).isSome

theorem exists_next_of_isNext {o : Host.Outcome State Fault Refusal} (h : isNext o = true) : ∃ t, o = .next t := by
  cases o <;> simp_all [isNext, nextOf]

/-- The outcome is a next state with the property. -/
def nextWith (p : State → Bool) (o : Host.Outcome State Fault Refusal) : Bool := ((nextOf o).map p).getD false

theorem exists_next_of_nextWith {p : State → Bool} {o : Host.Outcome State Fault Refusal} (h : nextWith p o = true) :
    ∃ t, o = .next t ∧ p t = true := by
  cases o <;> simp_all [nextWith, nextOf]

theorem witness_ResetAbandonsAnything :
    { midCommand with fault := .busy, inputs := [.reset] }.inputs = .reset :: [] := by decide

/-- An illegal word, a command, a port read and a reset, each from a state that meets the invariant. -/
theorem witness_StepKeepsInvariant :
    ∀ m ∈ [Input.write 0x7000, .write 0x4503, .readStatus, .reset],
      { booted with inputs := [m] }.Inv ∧ ∃ t, step { booted with inputs := [m] } = .next t := by
  intro m hm
  refine ⟨?_, exists_next_of_isNext ?_⟩
  · obtain ⟨⟨a, b, c, d, e⟩, f, g, h, i, j, k, l, n, o⟩ := inv_booted
    exact ⟨⟨a, b, c, d, e⟩, f, g, h, i, j, k, l, n, o⟩
  · revert m; decide

theorem witness_DecodeIffEncode :
    decode (.command 0x4FFF) = .ok (.digit 15 255) ∧ (Instr.digit 15 255).wf = true ∧
      encode (.digit 15 255) = .command 0x4FFF := by decide

theorem witness_CommandsAreTheSixPatterns :
    ∃ r ∈ commandRows, r.matches 0x4FFF = true := by decide

/-- One word at a boundary of each clause's range. -/
theorem witness_OperandsOfCommandWords :
    ((0x1000#16).toNat / 512 = 8 ∧ (0x11FF#16).toNat / 512 = 8) ∧
    ((0x2000#16).toNat / 512 = 16 ∧ (0x2100#16).toNat / 512 = 16 ∧ (0x2100#16).toNat % 256 = 0) ∧
    ((0x3000#16).toNat / 256 = 48 ∧ (0x30FF#16).toNat / 256 = 48) ∧
    ((0x4000#16).toNat / 4096 = 4 ∧ (0x4FFF#16).toNat / 4096 = 4) ∧
    ((0x5000#16).toNat / 512 = 40 ∧ (0x5100#16).toNat / 512 = 40 ∧ (0x5100#16).toNat % 256 = 0) ∧
    (0x6000#16).toNat = 0x6000 := by decide

/-- A state and a word for each clause of the checks. -/
theorem witness_ChecksRunInOrder :
    haltedState.fault ≠ .noFault ∧ (midCommand.fault = .noFault ∧ midCommand.busy = true) ∧
    (State.reset.fault = .noFault ∧ State.reset.busy = false ∧
      commandRows.any (fun r => r.matches 0x2001) = false) ∧
    (commandRows.any (fun r => r.matches 0x2000) = true ∧ (0x2000#16).toNat / 4096 ≠ 1 ∧
      State.reset.initDone = false) ∧
    (booted.fault = .noFault ∧ booted.busy = false ∧ commandRows.any (fun r => r.matches 0x11FF) = true ∧
      (0x11FF#16).toNat / 4096 = 1 ∧ booted.initDone = true) ∧
    (((0x11FF#16).toNat / 4096 = 1 ↔ State.reset.initDone = false) ∧
      ((0x6000#16).toNat / 4096 = 1 ↔ booted.initDone = false)) := by decide

theorem witness_DisplayControlByteFields : (15 : Nat) < 16 := by decide

theorem witness_AssembledWordsDecodeBack :
    assemble "INIT 1, 7" = .ok (.command 0x1107) := by decide

theorem witness_StepRunsCommandWord :
    { booted with inputs := [.write 0x6000] }.inputs = .write 0x6000 :: [] ∧ decodeCommand 0x6000 = .ok .clear ∧
      decodeTableWord 16 0x4FFF = some (.digit 15 255) := by decide

/-- With no input and with an idle slot; an address byte and, after it, a segment byte; a table byte. -/
theorem witness_StepRunsWireByte :
    (midCommand.busy = true ∧ midCommand.fault = .noFault ∧ midCommand.uops = [] ∧
      midCommand.txQueue = 0xC0#8 :: [0x6D#8] ∧ decode (nextCode midCommand 0xC0) = .ok (.addrSet 0) ∧
      midCommand.inputs = [] ∧ { midCommand with inputs := [.idle] }.inputs = .idle :: []) ∧
    decode (nextCode { midCommand with segNext := true } 0x6D) = .ok (.segData 0x6D) ∧
    decodeTableWord 8 0x8F = some (.dispCtrl true 7) ∧ booted.fault = .noFault := by decide

theorem witness_IllegalWordRaisesIllegal :
    { State.reset with inputs := [.write 0x2001] }.inputs = .write 0x2001 :: [] ∧
      decodeCommand 0x2001 = .error .reservedField ∧ State.reset.fault = .noFault ∧ State.reset.busy = false := by
  decide

theorem witness_PortReadsHaveNoEffect :
    { haltedState with inputs := [.readStatus] }.inputs = .readStatus :: [] ∧
      { midCommand with inputs := [.readResult] }.inputs = .readResult :: [] := by decide

theorem witness_ResultLayout : (List.replicate 12 true).length ≤ 12 ∧ (11 : Nat) < 12 := by decide

theorem witness_InitCompletes : State.reset.Fresh := fresh_reset
theorem witness_EnableCompletes : booted.Ready := ready_booted
theorem witness_SetbrCompletes : booted.Ready := ready_booted
theorem witness_DigitCompletes : booted.Ready := ready_booted
theorem witness_ColonCompletes : booted.Ready := ready_booted
theorem witness_ClearCompletes : booted.Ready := ready_booted

/-- The instruction completes and appends some events to the trace. -/
def CompletesWithEvents (i : Instr) (s : State) : Prop :=
  ∃ t evs, exec i s = .next t ∧ t.fault = .noFault ∧ t.trace = s.trace ++ evs

theorem completesWithEvents_of_ready {s : State} (h : s.Ready) :
    CompletesWithEvents (.enable false) s ∧ CompletesWithEvents (.setbr (-1)) s ∧
    CompletesWithEvents (.digit 15 10) s ∧ CompletesWithEvents (.colon true) s ∧ CompletesWithEvents .clear s := by
  refine ⟨?_, ?_, ?_, ?_, ?_⟩ <;>
    simp only [CompletesWithEvents, exec, execEnable, execSetbr, execDigit, execColon, execClear,
      hostCommand_ready _ h, complete, accept, sendCfg_eq, writeSeg_eq, blankAll_eq] <;>
    exact ⟨_, _, rfl, h.fault, rfl⟩

theorem completesWithEvents_of_fresh {s : State} (h : s.Fresh) : CompletesWithEvents (.init true 7) s := by
  simp only [CompletesWithEvents, exec, execInit, hostCommand_fresh _ h, complete, accept, sendCfg_eq, emit,
    List.append_assoc]
  exact ⟨_, _, rfl, h.fault, rfl⟩

/-- For every command, a state in which it completes, and the events it makes there. -/
theorem witness_CommandTrafficCounts :
    (State.reset.Fresh ∧ CompletesWithEvents (.init true 7) State.reset) ∧
    booted.Ready ∧ CompletesWithEvents (.enable false) booted ∧ CompletesWithEvents (.setbr (-1)) booted ∧
    CompletesWithEvents (.digit 15 10) booted ∧ CompletesWithEvents (.colon true) booted ∧
    CompletesWithEvents .clear booted :=
  ⟨⟨fresh_reset, completesWithEvents_of_fresh fresh_reset⟩, ready_booted, completesWithEvents_of_ready ready_booted⟩

/-- A command that faults, for the other side of the count. -/
theorem witness_CommandTrafficCounts_fault :
    ∃ t evs, exec .clear State.reset = .next t ∧ t.fault ≠ .noFault ∧ t.trace = State.reset.trace ++ evs :=
  ⟨_, [], rfl, by decide, rfl⟩

theorem witness_EarlyCommandsRaiseUninit : State.reset.Fresh := fresh_reset
theorem witness_SecondInitRaisesReinit :
    booted.fault = .noFault ∧ booted.busy = false ∧ booted.initDone = true := by decide

/-- The silent host, the write, and the steps there still are. -/
theorem witness_HaltedEngineMakesNoStep :
    haltedState.fault ≠ .noFault ∧ haltedState.inputs = [] ∧
    { haltedState with inputs := [.write 0x6000] }.inputs = .write 0x6000 :: [] ∧
    { haltedState with inputs := [.reset] }.inputs = .reset :: [] ∧
    (∀ m ∈ [Input.readStatus, .readResult, .idle],
      (∃ t, step { haltedState with inputs := [m] } = .next t) ∧
      (∃ t, microStep { haltedState with inputs := [m] } = .next t) ∧
      ∀ k, { haltedState with inputs := [m] }.inputs ≠ .reset :: k) := by
  refine ⟨by decide, by decide, by decide, by decide, ?_⟩
  intro m hm
  refine ⟨exists_next_of_isNext ?_, exists_next_of_isNext ?_, ?_⟩
  · revert m; decide
  · revert m; decide
  · intro k h
    simp only [List.mem_cons, List.not_mem_nil, or_false] at hm
    rcases hm with rfl | rfl | rfl <;> simp at h

theorem witness_DataCmdFixedCompletes : booted.fault = .noFault ∧ booted.pins = Pins.idle := by decide
theorem witness_AddrSetCompletes : booted.fault = .noFault ∧ booted.pins = Pins.idle := by decide
theorem witness_DispCtrlCompletes : 7 < 8 ∧ booted.fault = .noFault ∧ booted.pins = Pins.idle := by decide

/-- The engine after an address byte, with a monitor that saw it. -/
def afterAddress : State := (nextOf (exec (.addrSet 1) booted)).getD State.reset

theorem witness_SegDataCompletes :
    afterAddress.fault = .noFault ∧ afterAddress.pins.clkDir = .output ∧ afterAddress.pins.clkOut = false ∧
    afterAddress.pins.dioDir = .output ∧
    afterAddress.monitor.pins = afterAddress.pins ∧ afterAddress.monitor.frame = some [0xC1#8] ∧
    afterAddress.monitor.bits = [] := by decide

theorem witness_TransferHasNineClocks : booted.pins.clkDir = .output := by decide
theorem witness_StartAndStopEdges :
    booted.pins = Pins.idle ∧ afterAddress.pins.clkDir = .output ∧ afterAddress.pins.clkOut = false ∧
      afterAddress.pins.dioDir = .output := by decide
theorem witness_TransferEventsOf8F : { State.reset with draws := [true] }.draws = [true] := by decide

/-- Each of the registers is changed by an instruction named, FAULT on each of its three grounds. -/
theorem witness_OnlyTheseInstructionsWrite :
    (∃ t, exec (.enable false) booted = .next t ∧ (t.cfgOn != booted.cfgOn) = true) ∧
    (∃ t, exec (.setbr (-1)) booted = .next t ∧ (t.cfgBr != booted.cfgBr) = true) ∧
    (∃ t, exec (.digit 1 4) booted = .next t ∧ (t.segcache != booted.segcache) = true) ∧
    (∃ t, exec (.init true 7) fresh = .next t ∧
      (t.initDone != fresh.initDone && t.pins.clkDir != fresh.pins.clkDir && t.result != fresh.result) = true) ∧
    (∃ t, exec .clear fresh = .next t ∧ (t.fault == .uninit) = true) ∧
    (∃ t, exec (.init true 7) booted = .next t ∧ (t.fault == .reinit) = true) ∧
    (∃ t, exec (.colon true) midCommand = .next t ∧ (t.fault == .busy) = true) :=
  ⟨⟨_, rfl, by decide⟩, ⟨_, rfl, by decide⟩, ⟨_, rfl, by decide⟩, ⟨_, rfl, by decide⟩, ⟨_, rfl, by decide⟩,
    ⟨_, rfl, by decide⟩, ⟨_, rfl, by decide⟩⟩

theorem witness_FaultEntryChangesNothingElse :
    ∃ t, exec .clear State.reset = .next t ∧ (t.fault != State.reset.fault) = true := ⟨_, rfl, by decide⟩

theorem witness_TraceOnlyGrowsByTheDraws : ∃ t, exec (.digit 5 4) booted = .next t := ⟨_, rfl⟩

/-- A ready engine that meets the invariant, and twelve draws of 0 with a command that sends something. -/
theorem witness_DrawsChangeOnlyTheAcknowledgements :
    booted.Inv ∧ booted.fault = .noFault ∧
    (∀ k < 12, { booted with draws := List.replicate 12 false, drawCount := 0 }.drawAt k = false) ∧
    ∃ t, writeCmd 0x6000 { booted with draws := List.replicate 12 false, drawCount := 0 } = .next t ∧
      (t.trace.drop booted.trace.length != []) = true := by
  refine ⟨inv_booted, by decide, ?_, ⟨_, rfl, by decide⟩⟩
  intro k hk
  interval_cases k <;> rfl

theorem witness_ColonAndDigitCommute : booted.Ready ∧ booted.segTable.wf = true := ⟨ready_booted, by decide⟩
theorem witness_AliasedDigitDropsColon :
    booted.Ready ∧ booted.segTable.wf = true ∧
      ∀ pos ∈ [5, 9, 13], pos = 5 ∨ pos = 9 ∨ pos = 13 := ⟨ready_booted, by decide, by decide⟩
theorem witness_ClearLeavesTheLatch : booted.Ready := ready_booted
theorem witness_ColonIsSetAfterReset : haltedState.segTable.wf = true := by decide

/-- A digit at 15 (position 3), a colon and a CLEAR, each with another position. -/
theorem witness_OtherPositionsKeepTheirByte :
    booted.Inv ∧ booted.Ready ∧ (∃ t, exec (.digit 15 6) booted = .next t) ∧ 0 ≠ 15 % 4 ∧
      (∃ t, exec (.colon true) booted = .next t) ∧ 0 ≠ 1 ∧ (∃ t, exec .clear booted = .next t) ∧ 3 < 4 :=
  ⟨inv_booted, ready_booted, ⟨_, rfl⟩, by decide, ⟨_, rfl⟩, by decide, ⟨_, rfl⟩, by decide⟩

theorem witness_RepeatedEnableSendsAgain : booted.Ready := ready_booted
theorem witness_OtherRepeatedCommandsSendAgain :
    booted.Ready ∧ ∃ br, Instr.setbr (-1) = .setbr br := ⟨ready_booted, _, rfl⟩
theorem witness_MicroStepsRefineTheStep : booted.Quiet ∧ State.reset.Quiet := ⟨quiet_booted, quiet_reset⟩

/-- A micro-step with an event (INIT's ConfigureLines) and one without (a byte is loaded). -/
theorem witness_MicroStepEmitsAtMostOneEvent :
    (∃ t, microStep { State.reset with inputs := [.write 0x1107] } = .next t) ∧
      (∀ k, { State.reset with inputs := [.write 0x1107] }.inputs ≠ .reset :: k) ∧
      (∃ t, microStep midCommand = .next t) ∧ ∀ k, midCommand.inputs ≠ .reset :: k := by
  refine ⟨⟨_, rfl⟩, ?_, ⟨_, rfl⟩, ?_⟩
  · intro k h
    simp at h
  · intro k h
    have : midCommand.inputs = [] := by decide
    simp [this] at h

/-- A write in the middle of a command, then an idle slot the frozen engine passes. -/
theorem witness_WriteWhileBusyFreezesTheCommand :
    let s : State := { midCommand with inputs := [.write 0x2100, .idle] }
    s.busy = true ∧ s.fault = .noFault ∧ s.inputs = .write 0x2100 :: [.idle] ∧
      (∃ t, microRun 1 { s with inputs := [.idle], fault := .busy } = .next t) ∧ ∀ m ∈ [Input.idle], m ≠ .reset :=
  ⟨by decide, by decide, by decide, ⟨_, rfl⟩, by decide⟩

theorem witness_CommandsRunInOrder :
    let s : State := { booted with inputs := [.write 0x4103, .write 0x5100] }
    s.inputs = .write 0x4103 :: .write 0x5100 :: [] ∧
      ∃ t u, step s = .next t ∧ step t = .next u :=
  ⟨by decide, _, _, rfl, rfl⟩

end Sys2Proof.Tests
end

/-! PROOFS. The statements about the two granularities of 00_scope.md R9: a step is its instruction, a micro-step emits
at most one event, and the micro-steps of a command reach the outcome of its one atomic step. -/

namespace Sys2Proof.Machine

/-! ### The step on a written word -/

/-- A slot in which the host writes to CMD is that write, without the move that made it. -/
theorem step_write {s : State} {cw : Word} {k : List Input} (h : s.inputs = .write cw :: k) :
    step s = writeCmd cw { s with inputs := k } := by
  simp [step, runSlot, takeInput, h]

/-- A legal word is its instruction (30_encoding.md R75). -/
theorem writeCmd_of_decode {cw : Word} {i : Instr} (h : decodeCommand cw = .ok i) (s : State) :
    writeCmd cw s = exec i s := by
  simp [writeCmd, h]

/-- A 16-bit table word has an instruction only as a command word. -/
theorem decodeCommand_of_decodeTableWord {w : Nat} {i : Instr} (h : decodeTableWord 16 w = some i) :
    decodeCommand (BitVec.ofNat 16 w) = .ok i := by
  have hd : decodeTableWord 16 w = decoded? (.command (BitVec.ofNat 16 w)) := rfl
  rw [hd, decoded?, decode] at h
  cases hw : decodeCommand (BitVec.ofNat 16 w) with
  | ok j => simpa [hw] using h
  | error e => simp [hw] at h

/-- Settles O12: a write is `writeCmd`, which is `exec` of the decoded word; a placed table word is the next write. -/
theorem stepRunsCommandWord : Obligations.StepRunsCommandWord := by
  refine ⟨fun s cw k i hs hd => ?_, fun s w i hd => ?_⟩
  · rw [step_write hs, writeCmd_of_decode hd]
  · have hs : (s.withFetchWord 16 w).inputs = .write (BitVec.ofNat 16 w) :: s.inputs := rfl
    rw [step_write hs, writeCmd_of_decode (decodeCommand_of_decodeTableWord hd)]
    rfl

/-! ### A micro-step emits at most one event -/

/-- The trace of `t` is that of `s` and at most one event more. -/
def EmitsAtMostOne (s t : State) : Prop :=
  ∃ evs : List WireEvent, evs.length ≤ 1 ∧ t.trace = s.trace ++ evs

theorem emitsAtMostOne_of_trace_eq {s t : State} (h : t.trace = s.trace) : EmitsAtMostOne s t :=
  ⟨[], by simp, by simp [h]⟩

theorem emitsAtMostOne_of_trace_append {s t : State} (e : WireEvent) (h : t.trace = s.trace ++ [e]) :
    EmitsAtMostOne s t :=
  ⟨[e], by simp, h⟩

/-- Everything a gate can let through: the refused command's fault, or the accepted one. -/
theorem gate_run_next {g : Gate} {s accepted t : State} (h : g.run s accepted = .next t) :
    (∃ code, t = raise code s) ∨ t = accepted := by
  cases g with
  | halted => cases h
  | raises code => cases h; exact .inl ⟨code, rfl⟩
  | accepts => cases h; exact .inr rfl

/-- Of what a command does before its first byte, only INIT's ConfigureLines is an event (42_display.md R151). -/
theorem emitsAtMostOne_beginBody (i : Instr) (s : State) : EmitsAtMostOne s (beginBody i s) := by
  cases i with
  | init en br => exact emitsAtMostOne_of_trace_append .configureLines rfl
  | enable | setbr | digit | colon | clear | dataCmdFixed | addrSet | dispCtrl | segData =>
    exact emitsAtMostOne_of_trace_eq rfl

theorem emitsAtMostOne_microWrite {cw : Word} {s t : State} (h : microWrite cw s = .next t) :
    EmitsAtMostOne s t := by
  unfold microWrite illegalWord at h
  split at h
  case h_1 i _ =>
    obtain ⟨code, rfl⟩ | rfl := gate_run_next h
    · exact emitsAtMostOne_of_trace_eq rfl
    · exact emitsAtMostOne_beginBody i (accept s)
  case h_2 =>
    obtain ⟨code, rfl⟩ | rfl := gate_run_next h
    · exact emitsAtMostOne_of_trace_eq rfl
    · exact emitsAtMostOne_of_trace_eq rfl

theorem emitsAtMostOne_microOp (op : MicroOp) (ops : List MicroOp) (s : State) :
    EmitsAtMostOne s (microOp op ops s) := by
  cases op with
  | emit e => exact emitsAtMostOne_of_trace_append e rfl
  | poll => exact emitsAtMostOne_of_trace_append (.sample (drawDio s)) rfl

/-- Taking a byte from the queue is no event yet. -/
theorem loadByte_trace {b : Byte} {s t : State} (h : loadByte b s = .next t) : t.trace = s.trace := by
  unfold loadByte at h
  split at h
  · cases h; rfl
  · cases h

theorem emitsAtMostOne_microSlot {s t : State} (h : microSlot s = .next t) : EmitsAtMostOne s t := by
  unfold microSlot at h
  split at h
  · cases h
  split at h
  · cases h; exact emitsAtMostOne_of_trace_eq rfl
  split at h
  case h_1 => cases h; exact emitsAtMostOne_microOp _ _ s
  case h_2 b bs _ _ => exact emitsAtMostOne_of_trace_eq (loadByte_trace (s := { s with txQueue := bs }) h)
  case h_3 => cases h; exact emitsAtMostOne_of_trace_eq rfl

theorem emitsAtMostOne_microIdle {s t : State} (h : microIdle s = .next t) : EmitsAtMostOne s t := by
  unfold microIdle at h
  split at h
  · cases h; exact emitsAtMostOne_of_trace_eq rfl
  · exact emitsAtMostOne_microSlot h

/-- Settles O49: by the move of the slot, and in the engine's own slot by what is left of the running command. -/
theorem microStepEmitsAtMostOneEvent : Obligations.MicroStepEmitsAtMostOneEvent := by
  intro s t h hreset
  change EmitsAtMostOne s t
  unfold microStep at h
  split at h
  case h_1 => exact emitsAtMostOne_microSlot h
  case h_2 m ms hin =>
    cases m with
    | write cw => exact emitsAtMostOne_microWrite (s := { s with inputs := ms }) h
    | readStatus | readResult => cases h; exact emitsAtMostOne_of_trace_eq rfl
    | idle => exact emitsAtMostOne_microIdle (s := { s with inputs := ms }) h
    | reset => exact absurd hin (hreset ms)

/-! ### Where micro-steps lead -/

/-- Some number of micro-steps leads from `s` to `t`. -/
def MicroReaches (s t : State) : Prop := ∃ n, microRun n s = .next t

theorem MicroReaches.refl (s : State) : MicroReaches s s := ⟨0, rfl⟩

theorem MicroReaches.trans {s t u : State} (hst : MicroReaches s t) (htu : MicroReaches t u) : MicroReaches s u := by
  obtain ⟨m, hm⟩ := hst
  obtain ⟨n, hn⟩ := htu
  exact ⟨m + n, (microRun_add m n s t hm).trans hn⟩

/-- A running command with nothing left to send, and a host that makes no further move. -/
structure State.Drained (s : State) : Prop where
  inputs  : s.inputs = []
  busy    : s.busy = true
  fault   : s.fault = .noFault
  txQueue : s.txQueue = []
  uops    : s.uops = []
  segNext : s.segNext = false

theorem State.Drained.requeue_self {s : State} (h : s.Drained) : requeue [] [] false s = s := by
  rw [requeue, ← h.txQueue, ← h.uops, ← h.segNext]

/-- Bytes queued while nothing else is left to send. -/
theorem State.Drained.queue_eq {s : State} (h : s.Drained) (q : List Byte) :
    { s with txQueue := q } = requeue q [] false s := by
  rw [requeue, ← h.uops, ← h.segNext]

theorem drained_accept {s : State} (hq : s.Quiet) (hi : s.inputs = []) (hf : s.fault = .noFault) :
    (accept s).Drained :=
  ⟨hi, rfl, hf, hq.txQueue, hq.uops, hq.segNext⟩

theorem drained_runOp (op : MicroOp) {s : State} (h : s.Drained) : (runOp op s).Drained := by
  obtain ⟨hi, hb, hf, ht, hu, hn⟩ := h
  cases op with
  | emit e => exact ⟨hi, hb, hf, ht, hu, hn⟩
  | poll =>
    rw [runOp, pollAck_eq]
    exact ⟨hi, hb, hf, ht, hu, hn⟩

theorem drained_runOps (ops : List MicroOp) {s : State} (h : s.Drained) : (runOps ops s).Drained := by
  induction ops generalizing s with
  | nil => exact h
  | cons op ops ih => exact ih (drained_runOp op h)

theorem runOp_requeue (op : MicroOp) (q : List Byte) (u : List MicroOp) (n : Bool) (s : State) :
    runOp op (requeue q u n s) = requeue q u n (runOp op s) := by
  cases op with
  | emit e => rfl
  | poll => simp only [runOp, pollAck_eq]; rfl

theorem runOps_requeue (ops : List MicroOp) (q : List Byte) (u : List MicroOp) (n : Bool) (s : State) :
    runOps ops (requeue q u n s) = requeue q u n (runOps ops s) := by
  induction ops generalizing s with
  | nil => rfl
  | cons op ops ih => rw [runOps, runOp_requeue, ih, runOps]

/-! ### What the micro-operations of a wire byte do (40_transport.md R111) -/

theorem runOps_dataCmdFixed (s : State) : runOps (wireOps .dataCmdFixed) s = sendCmd dataCmdByte s := by
  simp only [wireOps, runOps_append, runOps_startOps, runOps_xferOps, runOps_stopOps, sendCmd]

theorem runOps_dispCtrl (on : Bool) (br : BitVec 3) (s : State) :
    runOps (wireOps (.dispCtrl on br.toNat)) s = sendCmd (dispCtrlByte on br) s := by
  simp only [wireOps, runOps_append, runOps_startOps, runOps_xferOps, runOps_stopOps, sendCmd, clampBr_toNat]

theorem runOps_addrSet (pos : Nat) (s : State) : runOps (wireOps (.addrSet pos)) s = xfer (addrByte pos) (start s) := by
  simp only [wireOps, runOps_append, runOps_startOps, runOps_xferOps]

theorem runOps_segData (seg : Byte) (s : State) : runOps (wireOps (.segData seg)) s = stop (xfer seg s) := by
  simp only [wireOps, runOps_append, runOps_xferOps, runOps_stopOps]

/-! ### The bytes a command queues decode to themselves (30_encoding.md R77 to R79) -/

theorem decodeFirst_dataCmdByte : decodeFirst dataCmdByte = .ok .dataCmdFixed := by decide

theorem decodeFirst_dispCtrlByte (on : Bool) (br : BitVec 3) :
    decodeFirst (dispCtrlByte on br) = .ok (.dispCtrl on br.toNat) := by
  revert on br; decide

/-- The position's two low bits are all that is sent, and all that the same address byte needs. -/
theorem decodeFirst_addrByte (pos : Nat) :
    ∃ p, decodeFirst (addrByte pos) = .ok (.addrSet p) ∧ addrByte p = addrByte pos := by
  have all : ∀ v : Byte, decodeFirst (0xC0 ||| (v &&& Config.posMask)) = .ok (.addrSet (v.toNat % 4)) ∧
      addrByte (v.toNat % 4) = 0xC0 ||| (v &&& Config.posMask) := by decide
  exact ⟨_, all (BitVec.ofNat 8 pos)⟩

/-! ### The bytes of a command, one after the other -/

/-- The byte at the head of the queue is sent. -/
theorem microReaches_byte {s : State} (h : s.Drained) {b : Byte} {bs : List Byte} {n : Bool} {i : Instr}
    (hd : decode (nextCode (requeue (b :: bs) [] n s) b) = .ok i) :
    MicroReaches (requeue (b :: bs) [] n s) (requeue bs [] (opensSegment i) (runOps (wireOps i) s)) := by
  have hrun := microRun_byte b bs i (requeue (b :: bs) [] n s) h.inputs h.busy h.fault rfl rfl hd
  rwa [requeue_requeue, runOps_requeue] at hrun

/-- SEND_CFG (41_protocol.md R131): its writes and its one byte. -/
theorem microReaches_sendCfg (en : Bool) (br : Int) {s : State} (h : s.Drained) :
    MicroReaches (beginCfg en br s) (sendCfg en br s) ∧ (sendCfg en br s).Drained := by
  obtain ⟨hi, hb, hf, ht, hu, hn⟩ := h
  have hw : { s with cfgOn := en, cfgBr := clampBr br }.Drained := ⟨hi, hb, hf, ht, hu, hn⟩
  have hsent : (sendCfg en br s).Drained := by
    simpa only [runOps_dispCtrl, sendCfg] using drained_runOps (wireOps (.dispCtrl en (clampBr br).toNat)) hw
  have hbyte := microReaches_byte hw (bs := []) (n := false) (decodeFirst_dispCtrlByte en (clampBr br))
  rw [runOps_dispCtrl, ← hw.queue_eq] at hbyte
  have hreach : MicroReaches (beginCfg en br s) (requeue [] [] false (sendCfg en br s)) := hbyte
  exact ⟨hsent.requeue_self ▸ hreach, hsent⟩

/-- WRITE_SEG (41_protocol.md R133): its three bytes, at the head of any queue. -/
theorem microReaches_writeSeg (pos : Nat) (seg : Byte) (bs : List Byte) {s : State} (h : s.Drained) :
    MicroReaches (requeue (segBytes pos seg ++ bs) [] false s) (requeue bs [] false (writeSeg pos seg s)) ∧
      (writeSeg pos seg s).Drained := by
  obtain ⟨p, hp, hb⟩ := decodeFirst_addrByte pos
  have h1 := drained_runOps (wireOps .dataCmdFixed) h
  have h2 := drained_runOps (wireOps (.addrSet p)) h1
  have h3 := drained_runOps (wireOps (.segData seg)) h2
  have r1 := microReaches_byte h (bs := addrByte pos :: seg :: bs) (n := false) decodeFirst_dataCmdByte
  have r2 := microReaches_byte h1 (bs := seg :: bs) (n := false) hp
  have r3 := microReaches_byte h2 (b := seg) (bs := bs) (n := true) (i := .segData seg) rfl
  have hw : runOps (wireOps (.segData seg)) (runOps (wireOps (.addrSet p)) (runOps (wireOps .dataCmdFixed) s)) =
      writeSeg pos seg s := by
    rw [runOps_segData, runOps_addrSet, runOps_dataCmdFixed, hb, writeSeg]
  rw [hw] at h3 r3
  exact ⟨r1.trans (r2.trans r3), h3⟩

/-- WRITE_SEG as all that a command sends (42_display.md R154, R155). -/
theorem microReaches_only_writeSeg (pos : Nat) (seg : Byte) {s : State} (h : s.Drained) :
    MicroReaches { s with txQueue := segBytes pos seg } (writeSeg pos seg s) ∧ (writeSeg pos seg s).Drained := by
  obtain ⟨hreach, hsent⟩ := microReaches_writeSeg pos seg [] h
  rw [hsent.requeue_self, List.append_nil, ← h.queue_eq] at hreach
  exact ⟨hreach, hsent⟩

/-- CLEAR (42_display.md R156): the bytes of all its WRITE_SEG calls. -/
theorem microReaches_blankAll (ps : List Nat) {s : State} (h : s.Drained) :
    MicroReaches (requeue (ps.flatMap (segBytes · 0x00)) [] false s) (blankAll ps s) ∧ (blankAll ps s).Drained := by
  induction ps generalizing s with
  | nil => exact ⟨h.requeue_self ▸ .refl s, h⟩
  | cons p ps ih =>
    obtain ⟨hp, hd⟩ := microReaches_writeSeg p 0x00 (ps.flatMap (segBytes · 0x00)) h
    obtain ⟨hps, hd'⟩ := ih hd
    exact ⟨hp.trans hps, hd'⟩

/-! ### A whole command -/

/-- What the atomic model runs inside the envelope (42_display.md R151 to R156); a wire byte is no command. -/
def commandBody : Instr → State → State
  | .init en br, s => sendCfg en br { emit .configureLines s with initDone := true }
  | .enable on, s => sendCfg on s.cfgBr.toNat s
  | .setbr br, s => sendCfg s.cfgOn (clamp br 0 Config.brMax) s
  | .digit pos digit, s => writeSeg pos (digitByte pos digit s) { s with segcache := digitCache pos digit s }
  | .colon on, s => writeSeg Config.colonPos (withColon on s.segcache) { s with segcache := withColon on s.segcache }
  | .clear, s => blankAll (List.range Config.nPos) s
  | .dataCmdFixed, s | .addrSet _, s | .dispCtrl _ _, s | .segData _, s => s

/-- The instruction is one of the six host commands (30_encoding.md R72). -/
inductive IsHostCommand : Instr → Prop
  | init (en : Bool) (br : Int) : IsHostCommand (.init en br)
  | enable (on : Bool) : IsHostCommand (.enable on)
  | setbr (br : Int) : IsHostCommand (.setbr br)
  | digit (pos digit : Nat) : IsHostCommand (.digit pos digit)
  | colon (on : Bool) : IsHostCommand (.colon on)
  | clear : IsHostCommand .clear

theorem eq_of_ifReservedZero {zero : Bool} {i j : Instr} (h : ifReservedZero zero i = .ok j) : i = j := by
  cases zero with
  | false => cases h
  | true => cases h; rfl

/-- Only host commands have command words. -/
theorem isHostCommand_of_decodeCommand {cw : Word} {i : Instr} (h : decodeCommand cw = .ok i) : IsHostCommand i := by
  unfold decodeCommand at h
  split at h
  · exact eq_of_ifReservedZero h ▸ .init _ _
  · exact eq_of_ifReservedZero h ▸ .enable _
  · exact eq_of_ifReservedZero h ▸ .setbr _
  · cases h; exact .digit _ _
  · exact eq_of_ifReservedZero h ▸ .colon _
  · exact eq_of_ifReservedZero h ▸ .clear
  · cases h

/-- A host command is its checks around its body. -/
theorem exec_hostCommand {i : Instr} (hi : IsHostCommand i) (s : State) :
    exec i s = (commandGate (isInit i) s).run s (complete (commandBody i (accept s))) := by
  cases hi <;> rfl

/-- The micro-steps after a command's acceptance run its body. -/
theorem microReaches_commandBody {i : Instr} (hi : IsHostCommand i) {s : State} (h : s.Drained) :
    MicroReaches (beginBody i s) (commandBody i s) ∧ (commandBody i s).Drained := by
  have ⟨hin, hb, hf, ht, hu, hn⟩ := h
  cases hi with
  | init en br => exact microReaches_sendCfg en br ⟨hin, hb, hf, ht, hu, hn⟩
  | enable on => exact microReaches_sendCfg on _ h
  | setbr br => exact microReaches_sendCfg s.cfgOn _ h
  | digit pos digit =>
    have hw : { s with segcache := digitCache pos digit s }.Drained := ⟨hin, hb, hf, ht, hu, hn⟩
    exact microReaches_only_writeSeg pos (digitByte pos digit s) hw
  | colon on =>
    have hw : { s with segcache := withColon on s.segcache }.Drained := ⟨hin, hb, hf, ht, hu, hn⟩
    exact microReaches_only_writeSeg Config.colonPos (withColon on s.segcache) hw
  | clear =>
    have hclear := microReaches_blankAll (List.range Config.nPos) h
    rwa [← h.queue_eq] at hclear

/-- A running command with nothing left to send completes (42_display.md R150). -/
theorem State.Drained.microReaches_complete {s : State} (h : s.Drained) : MicroReaches s (complete s) :=
  ⟨1, microRun_complete s h.inputs h.busy h.fault h.uops h.txQueue⟩

/-! ### The refinement -/

theorem commandGate_accepts_fault {b : Bool} {s : State} (h : commandGate b s = .accepts) : s.fault = .noFault := by
  by_contra hf
  simp [commandGate, portGate, hf] at h

theorem microStep_write {s : State} {cw : Word} {k : List Input} (h : s.inputs = .write cw :: k) :
    microStep s = microWrite cw { s with inputs := k } := by
  simp [microStep, takeInput, h]

/-- One micro-step, as a run. -/
theorem microRun_one_eq (s : State) : microRun 1 s = microStep s := by
  cases h : microStep s <;> simp [microRun, h]

/-- A micro-step into a state that reaches `u`. -/
theorem microReaches_of_microStep {s t u : State} (hst : microStep s = .next t) (htu : MicroReaches t u) :
    MicroReaches s u :=
  .trans ⟨1, microRun_one hst⟩ htu

/-- The micro-steps from a legal word written to a quiet engine: the checks are those of the atomic step, in one
micro-step, and an accepted command runs its body and completes. -/
theorem exists_microRun_eq_exec {s : State} {cw : Word} {i : Instr} (hq : s.Quiet) (hd : decodeCommand cw = .ok i) :
    ∃ n, microRun n { s with inputs := [.write cw] } = exec i { s with inputs := [] } := by
  have hi := isHostCommand_of_decodeCommand hd
  have hstep : microStep { s with inputs := [.write cw] } =
      (commandGate (isInit i) { s with inputs := [] }).run { s with inputs := [] }
        (beginBody i (accept { s with inputs := [] })) := by
    rw [microStep_write rfl, microWrite, hd]
  rw [exec_hostCommand hi]
  cases hg : commandGate (isInit i) { s with inputs := [] } with
  | halted => exact ⟨1, by rw [microRun_one_eq, hstep, hg]; rfl⟩
  | raises code => exact ⟨1, by rw [microRun_one_eq, hstep, hg]; rfl⟩
  | accepts =>
    rw [hg] at hstep
    have hquiet : { s with inputs := [] }.Quiet := ⟨hq.busy, hq.txQueue, hq.uops, hq.segNext, hq.acks⟩
    obtain ⟨hbody, hsent⟩ :=
      microReaches_commandBody hi (drained_accept hquiet rfl (commandGate_accepts_fault hg))
    exact microReaches_of_microStep hstep (hbody.trans hsent.microReaches_complete)

/-- Settles O48: an illegal word takes one micro-step, which is the atomic step; a legal one runs its command. -/
theorem microStepsRefineTheStep : Obligations.MicroStepsRefineTheStep := by
  intro s cw hq
  rw [step_write rfl]
  cases hd : decodeCommand cw with
  | ok i =>
    rw [writeCmd_of_decode hd]
    exact exists_microRun_eq_exec hq hd
  | error e =>
    exact ⟨1, by rw [microRun_one_eq, microStep_write rfl, microWrite, writeCmd, hd]⟩

end Sys2Proof.Machine

/-! PROOFS. The state: the fields of STATUS and RESULT, what an instruction can write and draw, and the invariant of the
atomic model. -/

namespace Sys2Proof.Machine

/-! ### The STATUS view (10_state.md R29) -/

/-- The bits above INIT_DONE are SEGCACHE and the code of FAULT. -/
theorem status_above_initDone (s : State) (start len : Nat) :
    s.status.extractLsb' (start + 5) len = (s.segcache ++ s.fault.code).extractLsb' start len := by
  rw [State.status, BitVec.extractLsb'_append_eq_of_le (by omega), BitVec.extractLsb'_append_eq_of_le (by omega),
    BitVec.extractLsb'_append_eq_of_le (by omega)]
  rfl

/-- Settles O16: each field is a part of the word that STATUS is put together as. -/
theorem statusFields : Obligations.StatusFields := by
  intro s
  refine ⟨?_, ?_, ?_, ?_, ?_⟩
  · exact (status_above_initDone s 3 8).trans BitVec.extractLsb'_append_eq_left
  · have hcode : s.status.extractLsb' 5 3 = s.fault.code :=
      (status_above_initDone s 0 3).trans BitVec.extractLsb'_append_eq_right
    rw [hcode]
    cases s.fault <;> rfl
  · rw [State.status, BitVec.getLsbD_append, BitVec.getLsbD_append, BitVec.getLsbD_append]
    simp
  · rw [State.status, BitVec.getLsbD_append, BitVec.getLsbD_append]
    simp
  · exact BitVec.extractLsb'_append_eq_right

/-! ### RESULT (10_state.md R28) -/

/-- A number made of bits holds them, the first in bit 0. -/
theorem testBit_bitsToNat (bs : List Bool) (k : Nat) : (bitsToNat bs).testBit k = bs.getD k false := by
  induction bs generalizing k with
  | nil => simp [bitsToNat]
  | cons b bs ih =>
    have hbit : bitsToNat (b :: bs) = Nat.bit b (bitsToNat bs) := by rw [bitsToNat, Nat.bit_val, Nat.add_comm]
    cases k with
    | zero => rw [hbit, Nat.testBit_bit_zero]; rfl
    | succ k => rw [hbit, Nat.testBit_bit_succ, ih]; rfl

theorem packResult_count (acks : List Bool) : (packResult acks).extractLsb' 12 4 = BitVec.ofNat 4 acks.length :=
  BitVec.extractLsb'_append_eq_left

theorem packResult_bits (acks : List Bool) : (packResult acks).extractLsb' 0 12 = BitVec.ofNat 12 (bitsToNat acks) :=
  BitVec.extractLsb'_append_eq_right

/-- Settles O17: the count is the upper part of the word, and the acknowledgement bits are the bits of their number. -/
theorem resultLayout : Obligations.ResultLayout := by
  intro acks hlen
  refine ⟨packResult_count acks, fun k hk => ?_⟩
  rw [packResult, BitVec.getLsbD_append, if_pos hk, BitVec.getLsbD_ofNat, testBit_bitsToNat]
  simp [hk]

/-- The bits above the count are 0, since a number of `n` bits is below `2 ^ n`. -/
theorem resultForm_packResult {acks : List Bool} (h : acks.length = 1 ∨ acks.length = 3 ∨ acks.length = 12) :
    resultForm (packResult acks) = true := by
  have hcount : ((packResult acks).extractLsb' 12 4).toNat = acks.length := by
    rw [packResult_count, BitVec.toNat_ofNat]; omega
  have habove : (packResult acks).extractLsb' 0 12 >>> acks.length = 0#12 := by
    have hlt := bitsToNat_lt acks
    have hle : 2 ^ acks.length ≤ 2 ^ 12 := Nat.pow_le_pow_right (by decide) (by omega)
    apply BitVec.eq_of_toNat_eq
    rw [packResult_bits, BitVec.toNat_ushiftRight, BitVec.toNat_ofNat, Nat.mod_eq_of_lt (by omega),
      Nat.shiftRight_eq_div_pow, Nat.div_eq_of_lt hlt]
    rfl
  simp only [resultForm, hcount, habove]
  rcases h with h | h | h <;> rw [h] <;> rfl

/-! ### The step on a wire byte (30_encoding.md R76, R81) -/

/-- The engine's own slot in a command, between two bytes: the next byte at its place in the frame. -/
theorem engineSlot_byte {s : State} {b : Byte} {bs : List Byte} {i : Instr} (hb : s.busy = true)
    (hf : s.fault = .noFault) (hu : s.uops = []) (ht : s.txQueue = b :: bs) (hd : decode (nextCode s b) = .ok i) :
    engineSlot s = exec i { s with txQueue := bs } := by
  have hslot : engineSlot s = sendByte b { s with txQueue := bs } := by simp [engineSlot, hb, hf, hu, ht]
  have hd' : decode (nextCode { s with txQueue := bs } b) = .ok i := hd
  rw [hslot, sendByte, hd']

theorem step_silent {s : State} (h : s.inputs = []) : step s = engineSlot s := by
  simp [step, runSlot, h]

theorem step_idle {s : State} {k : List Input} (h : s.inputs = .idle :: k) :
    step s = idleSlot { s with inputs := k } := by
  simp [step, runSlot, takeInput, h]

theorem idleSlot_of_noFault {s : State} (h : s.fault = .noFault) : idleSlot s = engineSlot s := by
  simp [idleSlot, h]

theorem placeOfByte_cases (b : Byte) : placeOfByte b = .first b ∨ placeOfByte b = .second b := by
  unfold placeOfByte
  split
  · exact .inl rfl
  · exact .inr rfl

/-- A placed table byte stands where `placeOfByte` reads it (log 8). -/
theorem nextCode_withFetchWord (s : State) (w : Nat) :
    nextCode (s.withFetchWord 8 w) (BitVec.ofNat 8 w) = placeOfByte (BitVec.ofNat 8 w) := by
  obtain h | h := placeOfByte_cases (BitVec.ofNat 8 w) <;> simp [nextCode, State.withFetchWord, h]

theorem decode_of_decodeTableWord_byte {w : Nat} {i : Instr} (h : decodeTableWord 8 w = some i) :
    decode (placeOfByte (BitVec.ofNat 8 w)) = .ok i := by
  have hd : decodeTableWord 8 w = decoded? (placeOfByte (BitVec.ofNat 8 w)) := rfl
  rw [hd, decoded?] at h
  split at h
  case h_1 j hj => rw [hj, Option.some.inj h]
  case h_2 => cases h

theorem step_idle_byte {s : State} {b : Byte} {bs : List Byte} {k : List Input} {i : Instr} (hb : s.busy = true)
    (hf : s.fault = .noFault) (hu : s.uops = []) (ht : s.txQueue = b :: bs) (hd : decode (nextCode s b) = .ok i)
    (hin : s.inputs = .idle :: k) : step s = exec i { s with txQueue := bs, inputs := k } := by
  have hf' : { s with inputs := k }.fault = .noFault := hf
  rw [step_idle hin, idleSlot_of_noFault hf']
  exact engineSlot_byte (s := { s with inputs := k }) hb hf hu ht hd

/-- Settles O13: the slot is the engine's own, which sends the byte; a placed byte stands at the head of the queue. -/
theorem stepRunsWireByte : Obligations.StepRunsWireByte := by
  refine ⟨fun s b bs i hb hf hu ht hd => ⟨fun hin => ?_, fun k hin => ?_⟩, fun s w i hf hd => ?_⟩
  · rw [step_silent hin, engineSlot_byte hb hf hu ht hd]
  · exact step_idle_byte hb hf hu ht hd hin
  · have hcode := (congrArg decode (nextCode_withFetchWord s w)).trans (decode_of_decodeTableWord_byte hd)
    exact ⟨_, step_idle_byte (s := s.withFetchWord 8 w) rfl hf rfl rfl hcode rfl⟩

/-! ### Everything an instruction can do -/

/-- What an instruction does once its checks have passed: a command's body, or the stretch of its frame that a wire byte
is (30_encoding.md R76). -/
def instrBody : Instr → State → State
  | .dataCmdFixed, s => sendCmd dataCmdByte s
  | .addrSet pos, s => { xfer (addrByte pos) (start s) with segNext := true }
  | .dispCtrl on br, s => sendCfg on br s
  | .segData seg, s => { stop (xfer seg s) with segNext := false }
  | i, s => commandBody i s

theorem instrBody_hostCommand {i : Instr} (hi : IsHostCommand i) (s : State) : instrBody i s = commandBody i s := by
  cases hi <;> rfl

/-- The grounds on which an instruction raises a fault (60_exceptions.md R201). -/
inductive FaultGround (i : Instr) (s : State) : FaultCode → Prop
  | busy : IsHostCommand i → s.busy = true → FaultGround i s .busy
  | uninit : IsHostCommand i → s.busy = false → isInit i = false → s.initDone = false → FaultGround i s .uninit
  | reinit : s.busy = false → isInit i = true → s.initDone = true → FaultGround i s .reinit

/-- Everything an instruction that answers with a next state can have done (42_display.md R150, 40_transport.md R100). -/
inductive ExecNext (i : Instr) (s : State) : State → Prop
  | raises {code : FaultCode} : s.fault = .noFault → FaultGround i s code → ExecNext i s (raise code s)
  | completes : IsHostCommand i → s.fault = .noFault → s.busy = false → s.initDone = !isInit i →
      ExecNext i s (complete (instrBody i (accept s)))
  | sends : ¬ IsHostCommand i → s.fault = .noFault → ExecNext i s (instrBody i s)

/-- A wire byte is its body under the sequencer's one check. -/
theorem isHostCommand_or_sequencer (i : Instr) (s : State) :
    IsHostCommand i ∨ ¬ IsHostCommand i ∧ exec i s = sequencerStep (instrBody i) s := by
  cases i with
  | init en br => exact .inl (.init en br)
  | enable on => exact .inl (.enable on)
  | setbr br => exact .inl (.setbr br)
  | digit pos digit => exact .inl (.digit pos digit)
  | colon on => exact .inl (.colon on)
  | clear => exact .inl .clear
  | dataCmdFixed | addrSet | dispCtrl | segData => exact .inr ⟨nofun, rfl⟩

theorem execNext_of_exec {i : Instr} {s t : State} (h : exec i s = .next t) : ExecNext i s t := by
  obtain hi | ⟨hi, hseq⟩ := isHostCommand_or_sequencer i s
  · have henv : exec i s = hostCommand (isInit i) (commandBody i) s := exec_hostCommand hi s
    rw [henv] at h
    obtain ⟨-, hc⟩ | ⟨hf, hb, hc⟩ | ⟨hf, hb, hn, hd, hc⟩ | ⟨hf, hb, hn, hd, hc⟩ | ⟨hf, hb, hd, hc⟩ :=
      hostCommand_cases (isInit i) (commandBody i) s <;> rw [hc] at h <;> cases h
    · exact .raises hf (.busy hi hb)
    · exact .raises hf (.uninit hi hb hn hd)
    · exact .raises hf (.reinit hb hn hd)
    · exact instrBody_hostCommand hi (accept s) ▸ .completes hi hf hb hd
  · rw [hseq] at h
    obtain ⟨-, hc⟩ | ⟨hf, hc⟩ := sequencerStep_cases (instrBody i) s <;> rw [hc] at h <;> cases h
    exact .sends hi hf

/-! ### The draws an instruction takes -/

/-- From `s` to `t` the next `n` draws were taken, in order: each is a sample on the trace and an acknowledgement bit.
Nothing else of the two states matters, so a write to a register before or after is not seen. -/
def TakesDraws (n : Nat) (s t : State) : Prop :=
  (∃ evs, t.trace = s.trace ++ evs ∧ samplesOf evs = s.nextDraws n) ∧
    t.draws = s.draws.drop n ∧ t.drawCount = s.drawCount + n ∧ t.acks = s.acks ++ s.nextDraws n

theorem TakesDraws.withSegNext {n : Nat} {s t : State} (h : TakesDraws n s t) (b : Bool) :
    TakesDraws n s { t with segNext := b } := h

theorem takesDraws_xfer (v : Byte) (s : State) : TakesDraws 1 s (xfer v s) := by
  rw [xfer_eq]
  exact ⟨⟨_, rfl, by rw [samplesOf_xferEvents, nextDraws_one]⟩, List.drop_one.symm, rfl, by rw [nextDraws_one]⟩

/-- Events without a sample may come before. -/
theorem TakesDraws.after_emitAll {n : Nat} {s t : State} {es : List WireEvent} (he : samplesOf es = [])
    (h : TakesDraws n (emitAll es s) t) : TakesDraws n s t := by
  rw [emitAll_eq] at h
  obtain ⟨⟨evs, ht, hs⟩, hrest⟩ := h
  exact ⟨⟨es ++ evs, by rw [ht, List.append_assoc], by rw [samplesOf_append, he, hs]; rfl⟩, hrest⟩

/-- Events without a sample may follow. -/
theorem TakesDraws.then_emitAll {n : Nat} {s t : State} {es : List WireEvent} (he : samplesOf es = [])
    (h : TakesDraws n s t) : TakesDraws n s (emitAll es t) := by
  rw [emitAll_eq]
  obtain ⟨⟨evs, ht, hs⟩, hrest⟩ := h
  exact ⟨⟨evs ++ es, by rw [ht, List.append_assoc], by rw [samplesOf_append, he, hs, List.append_nil]⟩, hrest⟩

theorem takesDraws_sendCmd (b : Byte) (s : State) : TakesDraws 1 s (sendCmd b s) :=
  .after_emitAll (es := startEvents) rfl (.then_emitAll (es := stopEvents) rfl (takesDraws_xfer b (start s)))

theorem takesDraws_sendCfg (en : Bool) (br : Int) (s : State) : TakesDraws 1 s (sendCfg en br s) :=
  takesDraws_sendCmd (dispCtrlByte en (clampBr br)) { s with cfgOn := en, cfgBr := clampBr br }

theorem takesDraws_writeSeg (pos : Nat) (seg : Byte) (s : State) : TakesDraws 3 s (writeSeg pos seg s) := by
  rw [writeSeg_eq]
  exact ⟨⟨_, rfl, samplesOf_segEvents _ _ _ _ _⟩, rfl, rfl, rfl⟩

theorem takesDraws_clear (s : State) : TakesDraws 12 s (blankAll (List.range Config.nPos) s) := by
  rw [blankAll_eq]
  exact ⟨⟨_, rfl, samplesOf_clearEvents _⟩, rfl, rfl, rfl⟩

/-- How many bytes an instruction sends (42_display.md R159). -/
def bytesSent : Instr → Nat
  | .digit _ _ | .colon _ => 3
  | .clear => 12
  | .init _ _ | .enable _ | .setbr _ | .dataCmdFixed | .addrSet _ | .dispCtrl _ _ | .segData _ => 1

/-- Each byte an instruction sends takes one draw. -/
theorem takesDraws_instrBody (i : Instr) (s : State) : TakesDraws (bytesSent i) s (instrBody i s) := by
  cases i with
  | init en br =>
    exact .after_emitAll (es := [.configureLines]) rfl
      (takesDraws_sendCfg en br { emit .configureLines s with initDone := true })
  | enable | setbr | dispCtrl => exact takesDraws_sendCfg _ _ s
  | dataCmdFixed => exact takesDraws_sendCmd dataCmdByte s
  | digit pos digit => exact takesDraws_writeSeg pos _ { s with segcache := digitCache pos digit s }
  | colon on => exact takesDraws_writeSeg _ _ { s with segcache := withColon on s.segcache }
  | clear => exact takesDraws_clear s
  | addrSet pos =>
    have hsent : TakesDraws 1 s (xfer (addrByte pos) (start s)) :=
      .after_emitAll (es := startEvents) rfl (takesDraws_xfer (addrByte pos) (start s))
    exact hsent.withSegNext true
  | segData seg =>
    have hsent : TakesDraws 1 s (stop (xfer seg s)) := .then_emitAll rfl (takesDraws_xfer seg s)
    exact hsent.withSegNext false

/-- Settles O39: a raised fault takes no draw, and what passes its checks takes one for each byte it sends. -/
theorem traceOnlyGrowsByTheDraws : Obligations.TraceOnlyGrowsByTheDraws := by
  intro i s t h
  cases execNext_of_exec h with
  | raises => exact ⟨[], 0, (List.append_nil _).symm, rfl, rfl, rfl⟩
  | completes =>
    obtain ⟨⟨evs, ht, hs⟩, hd, hc, -⟩ := takesDraws_instrBody i (accept s)
    exact ⟨evs, bytesSent i, ht, hs, hd, hc⟩
  | sends =>
    obtain ⟨⟨evs, ht, hs⟩, hd, hc, -⟩ := takesDraws_instrBody i s
    exact ⟨evs, bytesSent i, ht, hs, hd, hc⟩

/-! ### The registers an instruction writes -/

/-- The writes an instruction makes to the registers of 10_state.md R20; the rest of its work is on the wires. INIT alone
makes CLK an output (42_display.md R151). -/
def registerWrites : Instr → State → State
  | .init en br, s =>
    { s with cfgOn := en, cfgBr := clampBr br, initDone := true, pins := { s.pins with clkDir := .output } }
  | .enable on, s => { s with cfgOn := on }
  | .setbr br, s => { s with cfgBr := clampBr br }
  | .digit pos digit, s => { s with segcache := digitCache pos digit s }
  | .colon on, s => { s with segcache := withColon on s.segcache }
  | .dispCtrl on br, s => { s with cfgOn := on, cfgBr := clampBr br }
  | .clear, s | .dataCmdFixed, s | .addrSet _, s | .segData _, s => s

@[simp] theorem registerWrites_segTable (i : Instr) (s : State) : (registerWrites i s).segTable = s.segTable := by
  cases i <;> rfl
@[simp] theorem registerWrites_fault (i : Instr) (s : State) : (registerWrites i s).fault = s.fault := by
  cases i <;> rfl
@[simp] theorem registerWrites_result (i : Instr) (s : State) : (registerWrites i s).result = s.result := by
  cases i <;> rfl
@[simp] theorem registerWrites_busy (i : Instr) (s : State) : (registerWrites i s).busy = s.busy := by
  cases i <;> rfl
@[simp] theorem registerWrites_txQueue (i : Instr) (s : State) : (registerWrites i s).txQueue = s.txQueue := by
  cases i <;> rfl
@[simp] theorem registerWrites_uops (i : Instr) (s : State) : (registerWrites i s).uops = s.uops := by
  cases i <;> rfl
@[simp] theorem registerWrites_inputs (i : Instr) (s : State) : (registerWrites i s).inputs = s.inputs := by
  cases i <;> rfl
@[simp] theorem registerWrites_reads (i : Instr) (s : State) : (registerWrites i s).reads = s.reads := by
  cases i <;> rfl

theorem registerWrites_accept (i : Instr) (s : State) :
    registerWrites i (accept s) = { registerWrites i s with busy := true, acks := [] } := by
  cases i <;> rfl

/-- The fields no transfer writes are the same in `s` and `t`. -/
structure SameRegisters (s t : State) : Prop where
  cfgOn    : t.cfgOn = s.cfgOn
  cfgBr    : t.cfgBr = s.cfgBr
  segcache : t.segcache = s.segcache
  segTable : t.segTable = s.segTable
  initDone : t.initDone = s.initDone
  fault    : t.fault = s.fault
  result   : t.result = s.result
  busy     : t.busy = s.busy
  clkDir   : t.pins.clkDir = s.pins.clkDir
  txQueue  : t.txQueue = s.txQueue
  uops     : t.uops = s.uops
  inputs   : t.inputs = s.inputs
  reads    : t.reads = s.reads

/-- An instruction writes its registers, and the rest of what it does is transfers. -/
theorem sameRegisters_instrBody (i : Instr) (s : State) : SameRegisters (registerWrites i s) (instrBody i s) := by
  cases i with
  | init | enable | setbr | dispCtrl =>
    simp only [instrBody, commandBody, sendCfg_eq, clampBr_toNat, clampBr_clamp]
    constructor <;> rfl
  | digit | colon =>
    simp only [instrBody, commandBody, writeSeg_eq]
    constructor <;> rfl
  | clear =>
    simp only [instrBody, commandBody, blankAll_eq]
    constructor <;> rfl
  | dataCmdFixed | addrSet | segData =>
    simp only [instrBody, sendCmd_eq, start_eq, xfer_eq, stop_eq]
    constructor <;> rfl

/-- An instruction raises a fault, or it writes its registers, and RESULT where it is a host command. -/
theorem raise_or_sameRegisters {i : Instr} {s t : State} (h : ExecNext i s t) :
    (∃ code, FaultGround i s code ∧ t = raise code s) ∨
      SameRegisters { registerWrites i s with result := t.result } t ∧
        (t.result = s.result ∨ IsHostCommand i ∧ t.fault = .noFault) := by
  cases h with
  | raises _ hg => exact .inl ⟨_, hg, rfl⟩
  | completes hi hf hb =>
    have hbody := sameRegisters_instrBody i (accept s)
    rw [registerWrites_accept] at hbody
    have hfault : (registerWrites i s).fault = .noFault := by simp [hf]
    have hbusy : (registerWrites i s).busy = false := by simp [hb]
    exact .inr ⟨{ hbody with result := rfl, busy := hbusy.symm }, .inr ⟨hi, hbody.fault.trans hfault⟩⟩
  | sends =>
    have hbody := sameRegisters_instrBody i s
    exact .inr ⟨{ hbody with result := rfl }, .inl (by simpa using hbody.result)⟩

/-! ### Who writes each register -/

theorem writer_cfgOn {i : Instr} {s : State} (h : (registerWrites i s).cfgOn ≠ s.cfgOn) :
    (∃ en br, i = .init en br) ∨ (∃ on, i = .enable on) ∨ ∃ on br, i = .dispCtrl on br := by
  cases i with
  | init en br => exact .inl ⟨en, br, rfl⟩
  | enable on => exact .inr (.inl ⟨on, rfl⟩)
  | dispCtrl on br => exact .inr (.inr ⟨on, br, rfl⟩)
  | _ => exact absurd rfl h

theorem writer_cfgBr {i : Instr} {s : State} (h : (registerWrites i s).cfgBr ≠ s.cfgBr) :
    (∃ en br, i = .init en br) ∨ (∃ br, i = .setbr br) ∨ ∃ on br, i = .dispCtrl on br := by
  cases i with
  | init en br => exact .inl ⟨en, br, rfl⟩
  | setbr br => exact .inr (.inl ⟨br, rfl⟩)
  | dispCtrl on br => exact .inr (.inr ⟨on, br, rfl⟩)
  | _ => exact absurd rfl h

/-- DIGIT caches what it sends only at the raw position `COLON_POS` (42_display.md R154). -/
theorem writer_segcache {i : Instr} {s : State} (h : (registerWrites i s).segcache ≠ s.segcache) :
    (∃ d, i = .digit 1 d) ∨ ∃ on, i = .colon on := by
  cases i with
  | digit pos digit =>
    have hpos : pos = Config.colonPos := by
      by_contra hpos
      exact h (if_neg hpos)
    exact .inl ⟨digit, hpos ▸ rfl⟩
  | colon on => exact .inr ⟨on, rfl⟩
  | _ => exact absurd rfl h

theorem writer_initDone {i : Instr} {s : State} (h : (registerWrites i s).initDone ≠ s.initDone) :
    ∃ en br, i = .init en br := by
  cases i with
  | init en br => exact ⟨en, br, rfl⟩
  | _ => exact absurd rfl h

theorem writer_clkDir {i : Instr} {s : State} (h : (registerWrites i s).pins.clkDir ≠ s.pins.clkDir) :
    ∃ en br, i = .init en br := by
  cases i with
  | init en br => exact ⟨en, br, rfl⟩
  | _ => exact absurd rfl h

theorem exists_init_of_isInit {i : Instr} (h : isInit i = true) : ∃ en br, i = .init en br := by
  cases i with
  | init en br => exact ⟨en, br, rfl⟩
  | _ => cases h

theorem IsHostCommand.later {i : Instr} (hi : IsHostCommand i) (h : isInit i = false) :
    (∃ on, i = .enable on) ∨ (∃ br, i = .setbr br) ∨ (∃ pos d, i = .digit pos d) ∨ (∃ on, i = .colon on) ∨
      i = .clear := by
  cases hi with
  | init => cases h
  | enable on => exact .inl ⟨on, rfl⟩
  | setbr br => exact .inr (.inl ⟨br, rfl⟩)
  | digit pos digit => exact .inr (.inr (.inl ⟨pos, digit, rfl⟩))
  | colon on => exact .inr (.inr (.inr (.inl ⟨on, rfl⟩)))
  | clear => exact .inr (.inr (.inr (.inr rfl)))

theorem IsHostCommand.init_or_later {i : Instr} (hi : IsHostCommand i) :
    (∃ en br, i = .init en br) ∨ (∃ on, i = .enable on) ∨ (∃ br, i = .setbr br) ∨ (∃ pos d, i = .digit pos d) ∨
      (∃ on, i = .colon on) ∨ i = .clear := by
  cases h : isInit i with
  | true => exact .inl (exists_init_of_isInit h)
  | false => exact .inr (hi.later h)

/-- Settles O37: a raise writes FAULT alone, on one of three grounds; anything else writes its own registers. -/
theorem onlyTheseInstructionsWrite : Obligations.OnlyTheseInstructionsWrite := by
  intro i s t h
  obtain ⟨code, hg, rfl⟩ | ⟨hsame, hresult⟩ := raise_or_sameRegisters (execNext_of_exec h)
  · refine ⟨nofun, nofun, nofun, nofun, nofun, nofun, fun _ => ?_, rfl, rfl, rfl, rfl, rfl, rfl⟩
    cases hg with
    | busy hi hb => exact .inr (.inr ⟨rfl, hi.init_or_later, hb⟩)
    | uninit hi _ hn hd => exact .inl ⟨rfl, hi.later hn, hd⟩
    | reinit _ hn hd => exact .inr (.inl ⟨rfl, exists_init_of_isInit hn, hd⟩)
  · obtain ⟨hon, hbr, hseg, htab, hinit, hfault, -, hbusy, hclk, htx, huops, hin, hreads⟩ := hsame
    refine ⟨fun hne => writer_cfgOn (hon ▸ hne), fun hne => writer_cfgBr (hbr ▸ hne),
      fun hne => writer_segcache (hseg ▸ hne), fun hne => writer_initDone (hinit ▸ hne),
      fun hne => writer_clkDir (hclk ▸ hne), fun hne => ?_, fun hne => ?_, ?_, ?_, ?_, ?_, ?_, ?_⟩
    · obtain ⟨hi, hf⟩ := hresult.resolve_left hne
      exact ⟨hi.init_or_later, hf⟩
    · exact absurd (by simpa using hfault) hne
    · simpa using hbusy
    · simpa using htab
    · simpa using hin
    · simpa using hreads
    · simpa using htx
    · simpa using huops

/-! ### Inside a command -/

/-- What holds of an accepted host command between two frames: the invariant but for BUSY, RESULT and the configuration,
which the command is about to write. -/
structure State.BetweenFrames (s : State) : Prop where
  txQueue      : s.txQueue = []
  uops         : s.uops = []
  segNext      : s.segNext = false
  table        : s.segTable.wf = true
  fault        : s.fault = .noFault
  initDone     : s.initDone = true
  idle         : s.pins = Pins.idle
  framesClosed : s.monitor.AtRest
  frameShapes  : ∀ f ∈ s.monitor.frames, frameShape f = true

/-- The configuration invariant (10_state.md R24). -/
def State.ConfigSent (s : State) : Prop :=
  lastDispCtrl s.monitor.frames = some (dispCtrlByte s.cfgOn s.cfgBr)

theorem monitor_of_trace_append {s t : State} {evs : List WireEvent} (h : t.trace = s.trace ++ evs) :
    t.monitor = s.monitor.watch evs := by
  rw [State.monitor, h, watch_append, State.monitor]

/-- More whole frames leave the monitor at rest and every frame in its shape. -/
theorem monitor_of_watch {s t : State} {evs : List WireEvent} {fs : List (List Byte)} (ht : t.trace = s.trace ++ evs)
    (hw : s.monitor.watch evs = { s.monitor with frames := s.monitor.frames ++ fs }) (hr : s.monitor.AtRest)
    (hs : ∀ f ∈ s.monitor.frames, frameShape f = true) (hfs : ∀ f ∈ fs, frameShape f = true) :
    t.monitor.AtRest ∧ (∀ f ∈ t.monitor.frames, frameShape f = true) ∧ t.monitor.frames = s.monitor.frames ++ fs := by
  rw [monitor_of_trace_append ht, hw]
  refine ⟨hr.withFrames _, fun f hf => ?_, rfl⟩
  obtain hf | hf := List.mem_append.mp hf
  · exact hs f hf
  · exact hfs f hf

theorem frameShape_dispCtrlByte (on : Bool) (br : BitVec 3) : frameShape [dispCtrlByte on br] = true := by
  revert on br; decide

theorem frameShape_addrByte (pos : Nat) (seg : Byte) : frameShape [addrByte pos, seg] = true := by
  have all : ∀ v : Byte, frameShape [0xC0 ||| (v &&& Config.posMask), 0] = true := by decide
  exact all (BitVec.ofNat 8 pos)

theorem lastDispCtrl_dispCtrlByte (fs : List (List Byte)) (on : Bool) (br : BitVec 3) :
    lastDispCtrl (fs ++ [[dispCtrlByte on br]]) = some (dispCtrlByte on br) := by
  have h : dispCtrlOf [dispCtrlByte on br] = some (dispCtrlByte on br) := by revert on br; decide
  simp [lastDispCtrl, h]

theorem lastDispCtrl_segmentFrames (fs : List (List Byte)) (pos : Nat) (seg : Byte) :
    lastDispCtrl (fs ++ [[dataCmdByte], [addrByte pos, seg]]) = lastDispCtrl fs := by
  have h : [[dataCmdByte], [addrByte pos, seg]].filterMap dispCtrlOf = [] := rfl
  rw [lastDispCtrl, List.filterMap_append, h, List.append_nil, lastDispCtrl]

/-- SEND_CFG sends the configuration it writes (41_protocol.md R131). -/
theorem betweenFrames_sendCfg {s : State} (h : s.BetweenFrames) (en : Bool) (br : Int) :
    (sendCfg en br s).BetweenFrames ∧ (sendCfg en br s).ConfigSent := by
  obtain ⟨htx, huops, hseg, htab, hf, hd, hidle, hrest, hshape⟩ := h
  obtain ⟨hrest', hshape', hframes⟩ := monitor_of_watch (t := sendCfg en br s) (by rw [sendCfg_eq])
    (watch_cmdEvents _ _ _ hrest) hrest hshape (by simpa using frameShape_dispCtrlByte en (clampBr br))
  have hconfig : (sendCfg en br s).ConfigSent := by
    rw [State.ConfigSent, hframes, lastDispCtrl_dispCtrlByte, sendCfg_eq]
  refine ⟨?_, hconfig⟩
  rw [sendCfg_eq] at hrest' hshape' ⊢
  exact ⟨htx, huops, hseg, htab, hf, hd, by rw [hidle]; rfl, hrest', hshape'⟩

/-- WRITE_SEG sends no display-control byte (41_protocol.md R133). -/
theorem betweenFrames_writeSeg {s : State} (h : s.BetweenFrames) (hc : s.ConfigSent) (pos : Nat) (seg : Byte) :
    (writeSeg pos seg s).BetweenFrames ∧ (writeSeg pos seg s).ConfigSent := by
  obtain ⟨htx, huops, hseg, htab, hf, hd, hidle, hrest, hshape⟩ := h
  obtain ⟨hrest', hshape', hframes⟩ := monitor_of_watch (t := writeSeg pos seg s) (by rw [writeSeg_eq])
    (watch_segEvents _ _ _ _ _ _ hrest) hrest hshape (by simpa using ⟨rfl, frameShape_addrByte pos seg⟩)
  have hconfig : (writeSeg pos seg s).ConfigSent := by
    rw [State.ConfigSent, hframes, lastDispCtrl_segmentFrames, hc, writeSeg_eq]
  refine ⟨?_, hconfig⟩
  rw [writeSeg_eq] at hrest' hshape' ⊢
  exact ⟨htx, huops, hseg, htab, hf, hd, by rw [hidle]; rfl, hrest', hshape'⟩

theorem betweenFrames_blankAll (ps : List Nat) {s : State} (h : s.BetweenFrames) (hc : s.ConfigSent) :
    (blankAll ps s).BetweenFrames ∧ (blankAll ps s).ConfigSent := by
  induction ps generalizing s with
  | nil => exact ⟨h, hc⟩
  | cons p ps ih =>
    obtain ⟨hp, hcp⟩ := betweenFrames_writeSeg h hc p 0x00
    exact ih hp hcp

/-! ### From acceptance to completion -/

/-- INIT makes the lines idle before its frame (42_display.md R151). -/
theorem betweenFrames_init {s : State} (h : s.Inv) (hf : s.fault = .noFault) (hd : s.initDone = false) :
    { emit .configureLines (accept s) with initDone := true }.BetweenFrames := by
  obtain ⟨htrace, -, -, -⟩ := h.beforeInit hd
  have hm : ({ emit .configureLines (accept s) with initDone := true } : State).monitor = Monitor.attach Pins.idle := by
    simp [State.monitor, htrace]; rfl
  exact ⟨h.quiet.txQueue, h.quiet.uops, h.quiet.segNext, h.table, hf, rfl, rfl, hm ▸ attach_idle_atRest, hm ▸ nofun⟩

theorem betweenFrames_accept {s : State} (h : s.Inv) (hf : s.fault = .noFault) (hd : s.initDone = true) :
    (accept s).BetweenFrames :=
  ⟨h.quiet.txQueue, h.quiet.uops, h.quiet.segNext, h.table, hf, hd, h.idle hd, h.framesClosed hd, h.frameShapes⟩

theorem State.BetweenFrames.withSegcache {s : State} (h : s.BetweenFrames) (v : Byte) :
    { s with segcache := v }.BetweenFrames :=
  ⟨h.txQueue, h.uops, h.segNext, h.table, h.fault, h.initDone, h.idle, h.framesClosed, h.frameShapes⟩

/-- An accepted command ends between frames with its configuration sent: INIT from lines it configures itself, the others
from lines the invariant gives as idle. -/
theorem betweenFrames_commandBody {i : Instr} (hi : IsHostCommand i) {s : State} (h : s.Inv) (hf : s.fault = .noFault)
    (hd : s.initDone = !isInit i) :
    (commandBody i (accept s)).BetweenFrames ∧ (commandBody i (accept s)).ConfigSent := by
  cases hi with
  | init en br => exact betweenFrames_sendCfg (betweenFrames_init h hf hd) en br
  | enable | setbr => exact betweenFrames_sendCfg (betweenFrames_accept h hf hd) _ _
  | digit pos digit =>
    exact betweenFrames_writeSeg ((betweenFrames_accept h hf hd).withSegcache (digitCache pos digit (accept s)))
      (h.config hd) pos _
  | colon on =>
    exact betweenFrames_writeSeg ((betweenFrames_accept h hf hd).withSegcache (withColon on s.segcache))
      (h.config hd) _ _
  | clear => exact betweenFrames_blankAll _ (betweenFrames_accept h hf hd) (h.config hd)

/-- A command that ends between frames, with as many acknowledgement bits as a command has, meets the invariant. -/
theorem State.BetweenFrames.inv_complete {s : State} (h : s.BetweenFrames) (hc : s.ConfigSent)
    (ha : s.acks.length = 1 ∨ s.acks.length = 3 ∨ s.acks.length = 12) : (complete s).Inv where
  quiet := ⟨rfl, h.txQueue, h.uops, h.segNext, rfl⟩
  table := h.table
  noBusyFault := by simp [h.fault]
  result := resultForm_packResult ha
  beforeInit := by simp [h.initDone]
  idle := fun _ => h.idle
  noUninit := by simp [h.fault]
  framesClosed := fun _ => h.framesClosed
  frameShapes := h.frameShapes
  config := fun _ => hc

theorem bytesSent_cases (i : Instr) : bytesSent i = 1 ∨ bytesSent i = 3 ∨ bytesSent i = 12 := by
  cases i with
  | digit | colon => exact .inr (.inl rfl)
  | clear => exact .inr (.inr rfl)
  | init | enable | setbr | dataCmdFixed | addrSet | dispCtrl | segData => exact .inl rfl

theorem length_acks_instrBody (i : Instr) (s : State) : (instrBody i (accept s)).acks.length = bytesSent i := by
  obtain ⟨-, -, -, ha⟩ := takesDraws_instrBody i (accept s)
  simp [ha]

/-! ### The steps keep the invariant -/

/-- A fault keeps the invariant where the atomic model raises it (60_exceptions.md R201, R202). -/
theorem inv_raise {s : State} (h : s.Inv) {code : FaultCode} (hb : code ≠ .busy)
    (hu : s.initDone = true → code ≠ .uninit) (hr : s.initDone = false → code ≠ .reinit) : (raise code s).Inv where
  quiet := ⟨h.quiet.busy, h.quiet.txQueue, h.quiet.uops, h.quiet.segNext, h.quiet.acks⟩
  table := h.table
  noBusyFault := hb
  result := h.result
  beforeInit := fun hd =>
    have ⟨htrace, hseg, hres, _⟩ := h.beforeInit hd
    ⟨htrace, hseg, hres, hr hd⟩
  idle := h.idle
  noUninit := hu
  framesClosed := h.framesClosed
  frameShapes := h.frameShapes
  config := h.config

/-- The invariant does not speak of the host's side. -/
theorem State.Inv.withHost {s : State} (h : s.Inv) (k : List Input) (r : List Word) :
    { s with inputs := k, reads := r }.Inv := by
  obtain ⟨⟨hb, htx, hu, hn, ha⟩, htab, hnb, hres, hbefore, hidle, hun, hclosed, hshape, hconf⟩ := h
  exact ⟨⟨hb, htx, hu, hn, ha⟩, htab, hnb, hres, hbefore, hidle, hun, hclosed, hshape, hconf⟩

/-- A reset in any state gives a state that meets the invariant (70_reset_and_hazards.md R230, R234). -/
theorem inv_platformReset {s : State} (h : s.segTable.wf = true) : (platformReset s).Inv where
  quiet := ⟨rfl, rfl, rfl, rfl, rfl⟩
  table := h
  noBusyFault := nofun
  result := (by decide : resultForm 0#16 = true)
  beforeInit := fun _ => ⟨rfl, rfl, rfl, nofun⟩
  idle := nofun
  noUninit := nofun
  framesClosed := nofun
  frameShapes := nofun
  config := nofun

/-- A host command keeps the invariant: refused, it changes FAULT alone; accepted, it ends between frames. -/
theorem inv_exec {s t : State} (h : s.Inv) {i : Instr} (hi : IsHostCommand i) (ht : exec i s = .next t) :
    t.Inv := by
  cases execNext_of_exec ht with
  | raises _ hg =>
    cases hg with
    | busy _ hb => exact absurd hb (by simp [h.quiet.busy])
    | uninit _ _ _ hd => exact inv_raise h nofun (by simp [hd]) nofun
    | reinit _ _ hd => exact inv_raise h nofun nofun (by simp [hd])
  | completes _ hf _ hd =>
    obtain ⟨hbody, hc⟩ := betweenFrames_commandBody hi h hf hd
    rw [← instrBody_hostCommand hi] at hbody hc
    exact hbody.inv_complete hc (by rw [length_acks_instrBody]; exact bytesSent_cases i)
  | sends hn => exact absurd hi hn

theorem inv_writeCmd {s t : State} (h : s.Inv) {cw : Word} (ht : writeCmd cw s = .next t) : t.Inv := by
  cases hd : decodeCommand cw with
  | ok i => exact inv_exec h (isHostCommand_of_decodeCommand hd) (writeCmd_of_decode hd s ▸ ht)
  | error e =>
    have hill : writeCmd cw s = illegalWord s := by rw [writeCmd, hd]
    rw [hill] at ht
    obtain ⟨-, hc⟩ | ⟨-, hb, -⟩ | ⟨-, -, hc⟩ := illegalWord_cases s
    · cases hc.symm.trans ht
    · exact absurd hb (by simp [h.quiet.busy])
    · cases hc.symm.trans ht
      exact inv_raise h nofun nofun nofun

/-- The engine's own slot changes nothing when no command is in progress (10_state.md R30). -/
theorem engineSlot_of_not_busy {s t : State} (hb : s.busy = false) (ht : engineSlot s = .next t) : t = s := by
  unfold engineSlot at ht
  split at ht
  · cases ht
  · simpa [hb] using ht.symm

theorem idleSlot_of_not_busy {s t : State} (hb : s.busy = false) (ht : idleSlot s = .next t) : t = s := by
  unfold idleSlot at ht
  split at ht
  · cases ht; rfl
  · exact engineSlot_of_not_busy hb ht

/-- Settles O4: by the host's move; only a word written to CMD or a reset changes what the invariant speaks of. -/
theorem stepKeepsInvariant : Obligations.StepKeepsInvariant := by
  intro s t h ht
  unfold step runSlot at ht
  split at ht
  case h_1 => exact engineSlot_of_not_busy h.quiet.busy ht ▸ h
  case h_2 m ms _ =>
    have hs : { s with inputs := ms }.Inv := h.withHost ms s.reads
    cases m with
    | write cw => exact inv_writeCmd hs ht
    | readStatus | readResult => cases ht; exact h.withHost ms _
    | idle => exact idleSlot_of_not_busy hs.quiet.busy ht ▸ hs
    | reset => cases ht; exact inv_platformReset hs.table

end Sys2Proof.Machine

/-! PROOFS. The remote segment space and the order of what is sent to it (20_memory.md): a command puts its own frames on
the wires each time it is issued, a segment command writes only the position it names, and commands run one after the
other. -/

namespace Sys2Proof.Machine

/-! ### The frames of a command -/

/-- The two frames of WRITE_SEG (41_protocol.md R133). -/
def segFrames (pos : Nat) (seg : Byte) : List (List Byte) := [[dataCmdByte], [addrByte pos, seg]]

/-- The frames a host command sends when it is accepted in the state (42_display.md R151 to R156); a wire byte is no
command. -/
def commandFrames : Instr → State → List (List Byte)
  | .init en br, _ => [[dispCtrlByte en (clampBr br)]]
  | .enable on, s => [[dispCtrlByte on s.cfgBr]]
  | .setbr br, s => [[dispCtrlByte s.cfgOn (clampBr br)]]
  | .digit pos digit, s => segFrames pos (digitByte pos digit s)
  | .colon on, s => segFrames Config.colonPos (withColon on s.segcache)
  | .clear, _ => segFrames 0 0 ++ segFrames 1 0 ++ segFrames 2 0 ++ segFrames 3 0
  | .dataCmdFixed, _ | .addrSet _, _ | .dispCtrl _ _, _ | .segData _, _ => []

/-- From `s` to `t` the engine sent these frames: they are what any monitor at rest reads off the new events. -/
def SendsFrames (fs : List (List Byte)) (s t : State) : Prop :=
  ∃ evs, t.trace = s.trace ++ evs ∧ ∀ m : Monitor, m.AtRest → m.watch evs = { m with frames := m.frames ++ fs }

theorem sendsFrames_sendCfg (en : Bool) (br : Int) (s : State) :
    SendsFrames [[dispCtrlByte en (clampBr br)]] s (sendCfg en br s) :=
  ⟨_, by rw [sendCfg_eq], fun m => watch_cmdEvents m _ _⟩

theorem sendsFrames_writeSeg (pos : Nat) (seg : Byte) (s : State) :
    SendsFrames (segFrames pos seg) s (writeSeg pos seg s) :=
  ⟨_, by rw [writeSeg_eq], fun m => watch_segEvents m _ _ _ _ _⟩

/-- ConfigureLines before the events is not seen by a monitor at rest (42_display.md R151). -/
theorem SendsFrames.after_configureLines {fs : List (List Byte)} {s t : State}
    (h : SendsFrames fs (emit .configureLines s) t) : SendsFrames fs s t := by
  obtain ⟨evs, ht, hw⟩ := h
  refine ⟨.configureLines :: evs, by simp [ht], fun m hm => ?_⟩
  have hsee : m.see .configureLines = m := by rw [see_configureLines m hm.frame, ← hm.pins]
  rw [watch_cons, hsee, hw m hm]

theorem sendsFrames_commandBody {i : Instr} (hi : IsHostCommand i) (s : State) :
    SendsFrames (commandFrames i s) s (commandBody i s) := by
  cases hi with
  | init en br =>
    exact .after_configureLines (sendsFrames_sendCfg en br { emit .configureLines s with initDone := true })
  | enable on => simpa [commandFrames, commandBody] using sendsFrames_sendCfg on s.cfgBr.toNat s
  | setbr br => simpa [commandFrames, commandBody] using sendsFrames_sendCfg s.cfgOn (clamp br 0 Config.brMax) s
  | digit pos digit => exact sendsFrames_writeSeg pos _ { s with segcache := digitCache pos digit s }
  | colon on => exact sendsFrames_writeSeg _ _ { s with segcache := withColon on s.segcache }
  | clear => exact ⟨_, by rw [commandBody, blankAll_eq], fun m => watch_clearEvents m _⟩

theorem SendsFrames.framesFrom_eq {fs : List (List Byte)} {s t : State} (h : SendsFrames fs s t)
    (hp : s.pins = Pins.idle) : ∃ evs, t.trace = s.trace ++ evs ∧ framesFrom s.pins evs = fs := by
  obtain ⟨evs, ht, hw⟩ := h
  exact ⟨evs, ht, by rw [hp, framesFrom, hw _ attach_idle_atRest]; rfl⟩

theorem SendsFrames.monitor_frames {fs : List (List Byte)} {s t : State} (h : SendsFrames fs s t)
    (hm : s.monitor.AtRest) : t.monitor.frames = s.monitor.frames ++ fs := by
  obtain ⟨evs, ht, hw⟩ := h
  rw [monitor_of_trace_append ht, hw _ hm]

/-! ### A command of a ready engine -/

/-- The state a host command leaves when its checks pass (42_display.md R150). -/
def afterCommand (i : Instr) (s : State) : State := complete (commandBody i (accept s))

theorem exec_ready {i : Instr} (hi : IsHostCommand i) (hn : isInit i = false) {s : State} (h : s.Ready) :
    exec i s = .next (afterCommand i s) := by
  have henv : exec i s = hostCommand (isInit i) (commandBody i) s := exec_hostCommand hi s
  rw [henv, hn, hostCommand_ready _ h, afterCommand]

theorem commandFrames_accept (i : Instr) (s : State) : commandFrames i (accept s) = commandFrames i s := by
  cases i <;> rfl

theorem commandFrames_complete (i : Instr) (s : State) : commandFrames i (complete s) = commandFrames i s := by
  cases i <;> rfl

theorem sendsFrames_afterCommand {i : Instr} (hi : IsHostCommand i) (s : State) :
    SendsFrames (commandFrames i s) s (afterCommand i s) :=
  commandFrames_accept i s ▸ sendsFrames_commandBody hi (accept s)

/-- A command leaves the engine ready for the next (10_state.md R36). -/
theorem ready_afterCommand {i : Instr} (hi : IsHostCommand i) {s : State} (h : s.Ready) : (afterCommand i s).Ready := by
  obtain ⟨⟨-, htx, hu, hn, -⟩, hd, hf, hp⟩ := h
  rw [afterCommand]
  cases hi with
  | init => rw [commandBody, sendCfg_eq]; exact ⟨⟨rfl, htx, hu, hn, rfl⟩, rfl, hf, rfl⟩
  | enable | setbr => rw [commandBody, sendCfg_eq]; exact ⟨⟨rfl, htx, hu, hn, rfl⟩, hd, hf, by simp [hp, Pins.idle]⟩
  | digit | colon => rw [commandBody, writeSeg_eq]; exact ⟨⟨rfl, htx, hu, hn, rfl⟩, hd, hf, by simp [hp, Pins.idle]⟩
  | clear => rw [commandBody, blankAll_eq]; exact ⟨⟨rfl, htx, hu, hn, rfl⟩, hd, hf, by simp [hp, Pins.idle]⟩

/-! ### A command repeated (20_memory.md R58) -/

/-- The colon merged into a glyph a second time is already there (42_display.md R154). -/
theorem mergeColon_mergeColon (seg cache : Byte) : mergeColon seg (mergeColon seg cache) = mergeColon seg cache := by
  simp only [mergeColon]
  ext k
  simp only [BitVec.getElem_or, BitVec.getElem_and]
  cases seg[k] <;> simp

theorem withColon_withColon (on : Bool) (cache : Byte) : withColon on (withColon on cache) = withColon on cache := by
  cases on <;> simp [withColon, BitVec.or_assoc, BitVec.and_assoc]

/-- The glyph DIGIT renders from the cache it left is the one it rendered before (42_display.md R154). -/
theorem digitByte_digitCache (pos digit : Nat) (s : State) :
    digitByte pos digit { s with segcache := digitCache pos digit s } = digitByte pos digit s := by
  by_cases hpos : pos = Config.colonPos
  · simp [digitByte, digitCache, hpos, mergeColon_mergeColon]
  · simp [digitByte, hpos]

/-- What a command writes to the registers does not change what the same command sends next. -/
theorem commandFrames_registerWrites {i : Instr} (hi : IsHostCommand i) (s : State) :
    commandFrames i (registerWrites i s) = commandFrames i s := by
  cases hi with
  | init | enable | setbr | clear => rfl
  | digit pos digit => exact congrArg (segFrames pos) (digitByte_digitCache pos digit s)
  | colon on => exact congrArg (segFrames Config.colonPos) (withColon_withColon on s.segcache)

theorem SameRegisters.commandFrames_eq {s t : State} (h : SameRegisters s t) (i : Instr) :
    commandFrames i t = commandFrames i s := by
  obtain ⟨hon, hbr, hseg, htab, -⟩ := h
  cases i <;> simp [commandFrames, digitByte, hon, hbr, hseg, htab]

theorem commandFrames_afterCommand {i : Instr} (hi : IsHostCommand i) (s : State) :
    commandFrames i (afterCommand i s) = commandFrames i s := by
  have hsame := sameRegisters_instrBody i (accept s)
  rw [instrBody_hostCommand hi] at hsame
  calc commandFrames i (afterCommand i s)
      = commandFrames i (commandBody i (accept s)) := commandFrames_complete i _
    _ = commandFrames i (registerWrites i (accept s)) := hsame.commandFrames_eq i
    _ = commandFrames i (accept s) := commandFrames_registerWrites hi _
    _ = commandFrames i s := commandFrames_accept i s

/-- A command issued twice in a row completes twice and sends its frames twice. -/
theorem exists_exec_twice {i : Instr} (hi : IsHostCommand i) (hn : isInit i = false) {s : State} (h : s.Ready) :
    ∃ (t u : State) (evs evs' : List WireEvent),
      exec i s = .next t ∧ t.fault = .noFault ∧ t.trace = s.trace ++ evs ∧ framesFrom s.pins evs = commandFrames i s ∧
      exec i t = .next u ∧ u.fault = .noFault ∧ u.trace = t.trace ++ evs' ∧
      framesFrom t.pins evs' = commandFrames i s := by
  have ht := ready_afterCommand hi h
  have hu := ready_afterCommand hi ht
  obtain ⟨evs, htrace, hframes⟩ := (sendsFrames_afterCommand hi s).framesFrom_eq h.idle
  obtain ⟨evs', htrace', hframes'⟩ := (sendsFrames_afterCommand hi (afterCommand i s)).framesFrom_eq ht.idle
  exact ⟨_, _, evs, evs', exec_ready hi hn h, ht.fault, htrace, hframes, exec_ready hi hn ht, hu.fault, htrace',
    hframes'.trans (commandFrames_afterCommand hi s)⟩

/-- Settles O46: both ENABLE send the byte of the stored brightness, which ENABLE does not write. -/
theorem repeatedEnableSendsAgain : Obligations.RepeatedEnableSendsAgain := by
  intro s on h
  obtain ⟨t, u, evs, evs', ht, -, htrace, hframes, hu, -, htrace', hframes'⟩ := exists_exec_twice (.enable on) rfl h
  exact ⟨t, u, evs, evs', dispCtrlByte on s.cfgBr, ht, htrace, hframes, hu, htrace', hframes'⟩

/-- Settles O47: what the first run writes to SEGCACHE or the configuration leaves the second run's frames the same. -/
theorem otherRepeatedCommandsSendAgain : Obligations.OtherRepeatedCommandsSendAgain := by
  intro s i h hcase
  obtain ⟨hi, hn, hne⟩ : IsHostCommand i ∧ isInit i = false ∧ commandFrames i s ≠ [] := by
    obtain ⟨br, rfl⟩ | ⟨pos, d, rfl⟩ | ⟨on, rfl⟩ | rfl := hcase
    · exact ⟨.setbr br, rfl, nofun⟩
    · exact ⟨.digit pos d, rfl, nofun⟩
    · exact ⟨.colon on, rfl, nofun⟩
    · exact ⟨.clear, rfl, nofun⟩
  obtain ⟨t, u, evs, evs', ht, hf, htrace, hframes, hu, hf', htrace', hframes'⟩ := exists_exec_twice hi hn h
  exact ⟨t, u, evs, evs', ht, hf, htrace, hframes ▸ hne, hu, hf', htrace', hframes'.trans hframes.symm⟩

/-! ### The byte last sent to a position (20_memory.md R51, R52) -/

/-- What was sent later hides what was sent before. -/
theorem lastSegment_append (fs gs : List (List Byte)) (q : Nat) :
    lastSegment (fs ++ gs) q = (lastSegment gs q).or (lastSegment fs q) := by
  simp [lastSegment, List.filterMap_append, List.find?_append, Option.map_or]

/-- A segment frame writes the position modulo 4 (20_memory.md R52). -/
theorem segmentWrite_addrByte (pos : Nat) (seg : Byte) : segmentWrite [addrByte pos, seg] = some (pos % 4, seg) := by
  have hclass : ∀ v : Byte, (0xC0 ||| (v &&& Config.posMask)) &&& 0xFC = 0xC0#8 := by decide
  have hpos : ∀ v : Byte, ((0xC0 ||| (v &&& Config.posMask)) &&& 0x03).toNat = v.toNat % 4 := by decide
  have hmod : pos % 256 % 4 = pos % 4 := by omega
  rw [segmentWrite, addrByte, if_pos (hclass _), hpos, BitVec.toNat_ofNat, hmod]

theorem lastSegment_segFrames (pos : Nat) (seg : Byte) (q : Nat) :
    lastSegment (segFrames pos seg) q = if pos % 4 = q then some seg else none := by
  have hwrites : (segFrames pos seg).filterMap segmentWrite = [(pos % 4, seg)] := by
    rw [segFrames, List.filterMap_cons_none rfl, List.filterMap_cons_some (segmentWrite_addrByte pos seg),
      List.filterMap_nil]
  by_cases hq : pos % 4 = q <;> simp [lastSegment, hwrites, hq]

/-- After WRITE_SEG's frames a position that they do not name keeps its byte. -/
theorem lastSegment_append_segFrames {pos q : Nat} (hq : q ≠ pos % 4) (fs : List (List Byte)) (seg : Byte) :
    lastSegment (fs ++ segFrames pos seg) q = lastSegment fs q := by
  rw [lastSegment_append, lastSegment_segFrames, if_neg hq.symm, Option.none_or]

/-- CLEAR's frames name every position (42_display.md R156). -/
theorem lastSegment_append_clear {q : Nat} (hq : q < 4) (fs : List (List Byte)) (s : State) :
    lastSegment (fs ++ commandFrames .clear s) q = some 0x00#8 := by
  have hall : ∀ p < 4, lastSegment (segFrames 0 0 ++ segFrames 1 0 ++ segFrames 2 0 ++ segFrames 3 0) p =
      some 0x00#8 := by decide
  rw [commandFrames, lastSegment_append, hall q hq, Option.some_or]

theorem monitor_frames_of_exec {i : Instr} (hi : IsHostCommand i) (hn : isInit i = false) {s t : State} (hs : s.Inv)
    (h : s.Ready) (ht : exec i s = .next t) : t.monitor.frames = s.monitor.frames ++ commandFrames i s := by
  rw [exec_ready hi hn h] at ht
  cases ht
  exact (sendsFrames_afterCommand hi s).monitor_frames (hs.framesClosed h.initDone)

/-- Settles O45: the whole trace's frames grow by the command's, of which each segment frame writes one position. -/
theorem otherPositionsKeepTheirByte : Obligations.OtherPositionsKeepTheirByte := by
  intro s t q hs h
  refine ⟨fun pos d ht hq => ?_, fun on ht hq => ?_, fun ht hq => ?_⟩
  · rw [monitor_frames_of_exec (.digit pos d) rfl hs h ht]
    exact lastSegment_append_segFrames hq _ _
  · rw [monitor_frames_of_exec (.colon on) rfl hs h ht]
    exact lastSegment_append_segFrames (pos := Config.colonPos) hq _ _
  · rw [monitor_frames_of_exec .clear rfl hs h ht]
    exact lastSegment_append_clear hq _ s

/-! ### Commands one after the other (20_memory.md R57, R59) -/

theorem FaultGround.ne_noFault {i : Instr} {s : State} {code : FaultCode} (h : FaultGround i s code) :
    code ≠ .noFault := by
  cases h <;> nofun

/-- Everything a write to CMD that answers with a next state can have done: raise a fault, or run a host command to its
completion (42_display.md R150, 30_encoding.md R74). -/
theorem writeCmd_next {cw : Word} {s t : State} (h : writeCmd cw s = .next t) :
    s.fault = .noFault ∧
      ((∃ code, code ≠ .noFault ∧ t = raise code s) ∨ ∃ i, IsHostCommand i ∧ t = complete (instrBody i (accept s))) := by
  cases hd : decodeCommand cw with
  | ok i =>
    rw [writeCmd_of_decode hd] at h
    cases execNext_of_exec h with
    | raises hf hg => exact ⟨hf, .inl ⟨_, hg.ne_noFault, rfl⟩⟩
    | completes hi hf => exact ⟨hf, .inr ⟨i, hi, rfl⟩⟩
    | sends hn => exact absurd (isHostCommand_of_decodeCommand hd) hn
  | error e =>
    have hill : writeCmd cw s = illegalWord s := by rw [writeCmd, hd]
    rw [hill] at h
    obtain ⟨-, hc⟩ | ⟨hf, -, hc⟩ | ⟨hf, -, hc⟩ := illegalWord_cases s <;> rw [hc] at h <;> cases h
    · exact ⟨hf, .inl ⟨.busy, nofun, rfl⟩⟩
    · exact ⟨hf, .inl ⟨.illegal, nofun, rfl⟩⟩

/-- A completed command has put events on the trace: each has at least one byte to send. -/
theorem exists_events_instrBody (i : Instr) (s : State) :
    ∃ evs, evs ≠ [] ∧ (instrBody i (accept s)).trace = s.trace ++ evs := by
  obtain ⟨⟨evs, ht, hsamples⟩, -⟩ := takesDraws_instrBody i (accept s)
  refine ⟨evs, fun hnil => ?_, ht⟩
  have hlen : 0 = bytesSent i := by simpa [hnil, samplesOf] using congrArg List.length hsamples
  have := bytesSent_cases i
  omega

/-- A write to CMD takes none of the host's later moves and only appends to the trace. -/
theorem writeCmd_inputs_trace {cw : Word} {s t : State} (h : writeCmd cw s = .next t) :
    t.inputs = s.inputs ∧ ∃ evs, t.trace = s.trace ++ evs := by
  obtain ⟨-, ⟨code, -, rfl⟩ | ⟨i, -, rfl⟩⟩ := writeCmd_next h
  · exact ⟨rfl, [], (List.append_nil _).symm⟩
  · obtain ⟨evs, -, htrace⟩ := exists_events_instrBody i s
    exact ⟨by simpa using (sameRegisters_instrBody i (accept s)).inputs, evs, htrace⟩

/-- A write after which the engine is not halted ran its command to completion. -/
theorem writeCmd_completed {cw : Word} {s t : State} (h : writeCmd cw s = .next t) (hf : t.fault = .noFault) :
    t.busy = false ∧ ∃ evs, evs ≠ [] ∧ t.trace = s.trace ++ evs := by
  obtain ⟨-, ⟨code, hcode, rfl⟩ | ⟨i, -, rfl⟩⟩ := writeCmd_next h
  · exact absurd hf hcode
  · exact ⟨rfl, exists_events_instrBody i s⟩

/-- Settles O51: that the second write answers next shows the engine not halted by the first. -/
theorem commandsRunInOrder : Obligations.CommandsRunInOrder := by
  intro s t u cw cw' k hs ht hu
  rw [step_write hs] at ht
  have htin : t.inputs = .write cw' :: k := (writeCmd_inputs_trace ht).1
  rw [step_write htin] at hu
  have hf : t.fault = .noFault := (writeCmd_next hu).1
  obtain ⟨hbusy, evs, hne, htrace⟩ := writeCmd_completed ht hf
  obtain ⟨huin, evs', htrace'⟩ := writeCmd_inputs_trace hu
  refine ⟨htin, hf, hbusy, huin, evs, evs', hne, htrace, ?_⟩
  rw [htrace', htrace, List.append_assoc]

end Sys2Proof.Machine

/-! PROOFS. The encoding (30_encoding.md): what a code decodes to and what encodes to it, the six patterns and their
operands, the command and address bytes as numbers, the assembler's words, an illegal word, and the wire bytes. -/

namespace Sys2Proof

/-! ### What a command word decodes to (30_encoding.md R72, R73) -/

/-- The instruction of each combination of fields that is legal. -/
inductive CommandFields (op a : BitVec 4) (b : Byte) : Instr → Prop
  | init : op = 1 → flagOnly a = true → CommandFields op a b (.init (a.getLsbD 0) b.toInt)
  | enable : op = 2 → flagOnly a = true → b = 0 → CommandFields op a b (.enable (a.getLsbD 0))
  | setbr : op = 3 → a = 0 → CommandFields op a b (.setbr b.toInt)
  | digit : op = 4 → CommandFields op a b (.digit a.toNat b.toNat)
  | colon : op = 5 → flagOnly a = true → b = 0 → CommandFields op a b (.colon (a.getLsbD 0))
  | clear : op = 6 → a = 0 → b = 0 → CommandFields op a b .clear

theorem ifReservedZero_eq_ok {zero : Bool} {i j : Instr} : ifReservedZero zero i = .ok j ↔ zero = true ∧ i = j := by
  cases zero <;> simp [ifReservedZero]

theorem commandFields_of_decodeCommand {cw : Word} {i : Instr} (h : decodeCommand cw = .ok i) :
    CommandFields (fieldOp cw) (fieldA cw) (fieldB cw) i := by
  have hop {n : Nat} (hn : (fieldOp cw).toNat = n) : fieldOp cw = BitVec.ofNat 4 n := by
    rw [← hn, BitVec.ofNat_toNat, BitVec.setWidth_eq]
  unfold decodeCommand at h
  split at h <;> simp only [ifReservedZero_eq_ok, Bool.and_eq_true, beq_iff_eq] at h
  case h_1 hn => obtain ⟨ha, rfl⟩ := h; exact .init (hop hn) ha
  case h_2 hn => obtain ⟨⟨ha, hb⟩, rfl⟩ := h; exact .enable (hop hn) ha hb
  case h_3 hn => obtain ⟨ha, rfl⟩ := h; exact .setbr (hop hn) ha
  case h_4 hn => cases h; exact .digit (hop hn)
  case h_5 hn => obtain ⟨⟨ha, hb⟩, rfl⟩ := h; exact .colon (hop hn) ha hb
  case h_6 hn => obtain ⟨⟨ha, hb⟩, rfl⟩ := h; exact .clear (hop hn) ha hb
  case h_7 => cases h

theorem decodeCommand_of_commandFields {cw : Word} {i : Instr}
    (h : CommandFields (fieldOp cw) (fieldA cw) (fieldB cw) i) : decodeCommand cw = .ok i := by
  unfold decodeCommand
  cases h with
  | init hop ha | enable hop ha hb | setbr hop ha | digit hop | colon hop ha hb | clear hop ha hb =>
    simp [ifReservedZero, *]

/-! ### Decoding and encoding are inverse -/

theorem decode_encode {i : Instr} (hw : i.wf = true) : decode (encode i) = .ok i := by
  cases i with
  | init en br => exact Laws.DecodeEncode.init en br hw
  | enable on => exact Laws.DecodeEncode.enable on hw
  | setbr br => exact Laws.DecodeEncode.setbr br hw
  | digit pos d => exact Laws.DecodeEncode.digit pos d hw
  | colon on => exact Laws.DecodeEncode.colon on hw
  | clear => exact Laws.DecodeEncode.clear hw
  | dataCmdFixed => exact Laws.DecodeEncode.dataCmdFixed hw
  | addrSet pos => exact Laws.DecodeEncode.addrSet pos hw
  | dispCtrl on br => exact Laws.DecodeEncode.dispCtrl on br hw
  | segData seg => exact Laws.DecodeEncode.segData seg hw

/-- A field that holds only a flag is the flag's field (30_encoding.md R72). -/
theorem flagField_getLsbD {a : BitVec 4} (h : flagOnly a = true) : flagField (a.getLsbD 0) = a := by
  revert a; decide

/-- Eight bits always hold a brightness operand (30_encoding.md R73). -/
theorem brOperandOk_toInt (b : Byte) : brOperandOk b.toInt = true := by
  have hlo := BitVec.le_toInt b
  have hhi := BitVec.toInt_lt (x := b)
  simp only [brOperandOk, Bool.and_eq_true, decide_eq_true_eq]
  omega

/-- The fields are those of the word of their instruction, whose operands are in range. -/
theorem CommandFields.encode_eq {op a : BitVec 4} {b : Byte} {i : Instr} (h : CommandFields op a b i) :
    i.wf = true ∧ encode i = .command (commandWord op a b) := by
  cases h with
  | init hop ha => exact ⟨brOperandOk_toInt b, by rw [encode, flagField_getLsbD ha, BitVec.ofInt_toInt, hop]⟩
  | enable hop ha hb => exact ⟨rfl, by rw [encode, flagField_getLsbD ha, hop, hb]⟩
  | setbr hop ha => exact ⟨brOperandOk_toInt b, by rw [encode, BitVec.ofInt_toInt, hop, ha]⟩
  | digit hop =>
    have hw : (Instr.digit a.toNat b.toNat).wf = true := by simpa [Instr.wf] using ⟨a.isLt, b.isLt⟩
    exact ⟨hw, by simp [encode, hop]⟩
  | colon hop ha hb => exact ⟨rfl, by rw [encode, flagField_getLsbD ha, hop, hb]⟩
  | clear hop ha hb => exact ⟨rfl, by rw [encode, hop, ha, hb]⟩

/-- A byte of a command class is put together from the class's pattern and its operands (30_encoding.md R77 to R79). -/
theorem encode_of_decodeFirst {b : Byte} {i : Instr} (h : decodeFirst b = .ok i) :
    i.wf = true ∧ encode i = .first b := by
  unfold decodeFirst at h
  split at h
  case isTrue hb => cases h; exact ⟨rfl, by rw [hb]; rfl⟩
  split at h
  case isTrue hb =>
    cases h
    refine ⟨by simpa [Instr.wf] using (b.extractLsb' 0 2).isLt, ?_⟩
    have hsplit : b.extractLsb' 2 6 ++ b.extractLsb' 0 2 = b := BitVec.extractLsb'_append_extractLsb'
    rw [encode, ← hb, BitVec.ofNat_toNat, BitVec.setWidth_eq, hsplit]
  split at h
  case isTrue hb =>
    cases h
    refine ⟨by simpa [Instr.wf] using (b.extractLsb' 0 3).isLt, ?_⟩
    have hsplit : b.extractLsb' 4 4 ++ b.extractLsb' 3 1 ++ b.extractLsb' 0 3 = b := by
      have hhigh : b.extractLsb' 4 4 ++ b.extractLsb' 3 1 = b.extractLsb' 3 5 :=
        BitVec.extractLsb'_append_extractLsb'_eq_extractLsb' rfl
      rw [hhigh]
      exact BitVec.extractLsb'_append_extractLsb'
    have hflag : BitVec.ofBool (b.getLsbD 3) = b.extractLsb' 3 1 := by
      ext k hk
      simp [Nat.lt_one_iff.mp hk]
    rw [encode, ← hb, hflag, BitVec.ofNat_toNat, BitVec.setWidth_eq, hsplit]
  cases h

theorem encode_of_decode {c : Code} {i : Instr} (h : decode c = .ok i) : i.wf = true ∧ encode i = c := by
  cases c with
  | command cw =>
    have henc := (commandFields_of_decodeCommand h).encode_eq
    rwa [commandWord_fields] at henc
  | first b => exact encode_of_decodeFirst h
  | second b => cases h; exact ⟨rfl, rfl⟩

/-- Settles O5: what a code decodes to has its code, and the code of a well-formed instruction decodes to it. -/
theorem decodeIffEncode : Obligations.DecodeIffEncode := by
  intro c i
  constructor
  · exact encode_of_decode
  · rintro ⟨hw, rfl⟩
    exact decode_encode hw

/-! ### The six patterns (30_encoding.md R72, R74) -/

/-- Two words are equal when their three fields are (30_encoding.md R71). -/
theorem word_eq_iff_fields {v w : Word} :
    v = w ↔ fieldOp v = fieldOp w ∧ fieldA v = fieldA w ∧ fieldB v = fieldB w := by
  constructor
  · rintro rfl
    exact ⟨rfl, rfl, rfl⟩
  · rintro ⟨hop, ha, hb⟩
    rw [← commandWord_fields v, hop, ha, hb, commandWord_fields]

/-- A mask selects bits in each field by itself. -/
theorem matches_iff_fields {r : CommandRow} {cw : Word} :
    r.matches cw = true ↔ fieldOp cw &&& fieldOp r.mask = fieldOp r.pattern ∧
      fieldA cw &&& fieldA r.mask = fieldA r.pattern ∧ fieldB cw &&& fieldB r.mask = fieldB r.pattern := by
  rw [CommandRow.matches, beq_iff_eq, word_eq_iff_fields]
  simp only [fieldOp, fieldA, fieldB, BitVec.extractLsb'_and]

/-- `A[3:1] = 0`, as a mask on the field. -/
theorem flagOnly_iff_mask {a : BitVec 4} : flagOnly a = true ↔ a &&& 0xE = 0 := by
  revert a; decide

/-- The rows field by field: a `1` in a mask is a bit that must be that of the pattern. -/
theorem commandRows_fields :
    commandRows =
      [⟨"INIT", commandWord 1 0 0, commandWord 0xF 0xE 0⟩, ⟨"ENABLE", commandWord 2 0 0, commandWord 0xF 0xE 0xFF⟩,
       ⟨"SETBR", commandWord 3 0 0, commandWord 0xF 0xF 0⟩, ⟨"DIGIT", commandWord 4 0 0, commandWord 0xF 0 0⟩,
       ⟨"COLON", commandWord 5 0 0, commandWord 0xF 0xE 0xFF⟩,
       ⟨"CLEAR", commandWord 6 0 0, commandWord 0xF 0xF 0xFF⟩] := by
  decide

/-- The combinations of fields that are an instruction's. -/
theorem exists_commandFields_iff {op a : BitVec 4} {b : Byte} :
    (∃ i, CommandFields op a b i) ↔
      (op = 1 ∧ flagOnly a = true) ∨ (op = 2 ∧ flagOnly a = true ∧ b = 0) ∨ (op = 3 ∧ a = 0) ∨ op = 4 ∨
      (op = 5 ∧ flagOnly a = true ∧ b = 0) ∨ (op = 6 ∧ a = 0 ∧ b = 0) := by
  constructor
  · rintro ⟨i, h⟩
    cases h <;> simp [*]
  · rintro (⟨hop, ha⟩ | ⟨hop, ha, hb⟩ | ⟨hop, ha⟩ | hop | ⟨hop, ha, hb⟩ | ⟨hop, ha, hb⟩)
    · exact ⟨_, .init hop ha⟩
    · exact ⟨_, .enable hop ha hb⟩
    · exact ⟨_, .setbr hop ha⟩
    · exact ⟨_, .digit hop⟩
    · exact ⟨_, .colon hop ha hb⟩
    · exact ⟨_, .clear hop ha hb⟩

/-- A word matches a row when it has the row's OP and zeros where the row has reserved bits, which are the combinations
of fields that are an instruction's. -/
theorem exists_row_matches_iff {cw : Word} :
    (∃ r ∈ commandRows, r.matches cw = true) ↔ ∃ i, CommandFields (fieldOp cw) (fieldA cw) (fieldB cw) i := by
  have hall4 (v : BitVec 4) : v &&& 0xF = v := BitVec.and_allOnes
  have hall8 (v : Byte) : v &&& 0xFF = v := BitVec.and_allOnes
  rw [exists_commandFields_iff]
  simp only [commandRows_fields, matches_iff_fields, flagOnly_iff_mask, fieldOp_commandWord, fieldA_commandWord,
    fieldB_commandWord, hall4, hall8, List.mem_cons, List.not_mem_nil, exists_eq_or_imp, or_false, exists_eq_left]
  simp

/-- Every mask covers OP, which R75 selects the row by. -/
theorem fieldOp_of_matches {r : CommandRow} (hr : r ∈ commandRows) {cw : Word} (h : r.matches cw = true) :
    fieldOp cw = fieldOp r.pattern := by
  have hmask : ∀ r ∈ commandRows, fieldOp r.mask = BitVec.allOnes 4 := by decide
  obtain ⟨hop, -, -⟩ := matches_iff_fields.mp h
  rwa [hmask r hr, BitVec.and_allOnes] at hop

theorem row_eq_of_fieldOp : ∀ r ∈ commandRows, ∀ r' ∈ commandRows,
    fieldOp r.pattern = fieldOp r'.pattern → r = r' := by
  decide

/-- Settles O6: both sides are the six combinations of fields; OP, which every mask covers, tells the rows apart. -/
theorem commandsAreTheSixPatterns : Obligations.CommandsAreTheSixPatterns := by
  refine ⟨rfl, fun cw => ⟨?_, fun r hr r' hr' h h' => ?_⟩⟩
  · rw [exists_row_matches_iff]
    exact exists_congr fun i => ⟨commandFields_of_decodeCommand, decodeCommand_of_commandFields⟩
  · exact row_eq_of_fieldOp r hr r' hr' ((fieldOp_of_matches hr h).symm.trans (fieldOp_of_matches hr' h'))

/-! ### Operands as numbers (30_encoding.md R73) -/

theorem fieldOp_of_toNat {cw : Word} (op : Fin 16) (h : cw.toNat / 4096 = op) : fieldOp cw = BitVec.ofFin op :=
  BitVec.eq_of_toNat_eq (by rw [toNat_fieldOp, h]; rfl)

theorem flagOnly_iff_toNat {a : BitVec 4} : flagOnly a = true ↔ a.toNat < 2 := by
  revert a; decide

theorem flagOnly_fieldA_iff {cw : Word} : flagOnly (fieldA cw) = true ↔ cw.toNat / 512 % 8 = 0 := by
  rw [flagOnly_iff_toNat, toNat_fieldA]
  omega

theorem fieldA_eq_zero_iff {cw : Word} : fieldA cw = 0 ↔ cw.toNat / 256 % 16 = 0 := by
  rw [← BitVec.toNat_inj, toNat_fieldA]; rfl

theorem fieldB_eq_zero_iff {cw : Word} : fieldB cw = 0 ↔ cw.toNat % 256 = 0 := by
  rw [← BitVec.toNat_inj, toNat_fieldB]; rfl

theorem fieldA_flag (cw : Word) : (fieldA cw).getLsbD 0 = (cw.toNat / 256 % 2 == 1) := by
  have hbit : ∀ a : BitVec 4, a.getLsbD 0 = (a.toNat % 2 == 1) := by decide
  have hmod : cw.toNat / 256 % 16 % 2 = cw.toNat / 256 % 2 := by omega
  rw [hbit, toNat_fieldA, hmod]

theorem toInt_fieldB (cw : Word) : (fieldB cw).toInt =
    if cw.toNat % 256 < 128 then ((cw.toNat % 256 : Nat) : Int) else (cw.toNat % 256 : Nat) - 256 := by
  rw [BitVec.toInt_eq_toNat_cond, toNat_fieldB]
  have hhalf : 2 * (cw.toNat % 256) < 2 ^ 8 ↔ cw.toNat % 256 < 128 := by omega
  simp only [hhalf]
  rfl

/-- Settles O7: each clause fixes the fields of the word, and the operands are the fields as numbers. -/
theorem operandsOfCommandWords : Obligations.OperandsOfCommandWords := by
  intro cw n flag br
  have hflag : (fieldA cw).getLsbD 0 = flag := fieldA_flag cw
  have hbr : (fieldB cw).toInt = br := toInt_fieldB cw
  refine ⟨fun h => ?_, fun h hb => ?_, fun h => ?_, fun h => ?_, fun h hb => ?_, fun h => ?_⟩
  all_goals refine decodeCommand_of_commandFields ?_
  · rw [← hflag, ← hbr]
    exact .init (fieldOp_of_toNat 1 (by omega)) (flagOnly_fieldA_iff.mpr (by omega))
  · rw [← hflag]
    exact .enable (fieldOp_of_toNat 2 (by omega)) (flagOnly_fieldA_iff.mpr (by omega)) (fieldB_eq_zero_iff.mpr hb)
  · rw [← hbr]
    exact .setbr (fieldOp_of_toNat 3 (by omega)) (fieldA_eq_zero_iff.mpr (by omega))
  · rw [← toNat_fieldA, ← toNat_fieldB]
    exact .digit (fieldOp_of_toNat 4 h)
  · rw [← hflag]
    exact .colon (fieldOp_of_toNat 5 (by omega)) (flagOnly_fieldA_iff.mpr (by omega)) (fieldB_eq_zero_iff.mpr hb)
  · exact .clear (fieldOp_of_toNat 6 (by omega)) (fieldA_eq_zero_iff.mpr (by omega))
      (fieldB_eq_zero_iff.mpr (by omega))

/-! ### Command words as numbers (30_encoding.md R71, R85) -/

theorem commandWord_eq_ofNat (op a : BitVec 4) (b : Byte) :
    commandWord op a b = BitVec.ofNat 16 (op.toNat * 4096 + a.toNat * 256 + b.toNat) := by
  rw [← toNat_commandWord, BitVec.ofNat_toNat, BitVec.setWidth_eq]

theorem toNat_flagField (on : Bool) : (flagField on).toNat = on.toNat := by
  revert on; decide

theorem encode_init (en : Bool) (br : Int) :
    encode (.init en br) = .command (BitVec.ofNat 16 (0x1000 + 256 * en.toNat + (br % 256).toNat)) := by
  rw [encode, commandWord_eq_ofNat, toNat_flagField, BitVec.toNat_ofInt, Nat.mul_comm 256]
  rfl

theorem encode_enable (on : Bool) : encode (.enable on) = .command (BitVec.ofNat 16 (0x2000 + 256 * on.toNat)) := by
  rw [encode, commandWord_eq_ofNat, toNat_flagField, Nat.mul_comm 256]
  rfl

theorem encode_setbr (br : Int) : encode (.setbr br) = .command (BitVec.ofNat 16 (0x3000 + (br % 256).toNat)) := by
  rw [encode, commandWord_eq_ofNat, BitVec.toNat_ofInt]
  rfl

theorem encode_digit {pos d : Nat} (hpos : pos < 16) (hd : d < 256) :
    encode (.digit pos d) = .command (BitVec.ofNat 16 (0x4000 + 256 * pos + d)) := by
  rw [encode, commandWord_eq_ofNat, BitVec.toNat_ofNat, BitVec.toNat_ofNat, Nat.mod_eq_of_lt hpos, Nat.mod_eq_of_lt hd,
    Nat.mul_comm 256]
  rfl

theorem encode_colon (on : Bool) : encode (.colon on) = .command (BitVec.ofNat 16 (0x5000 + 256 * on.toNat)) := by
  rw [encode, commandWord_eq_ofNat, toNat_flagField, Nat.mul_comm 256]
  rfl

end Sys2Proof

namespace Sys2Proof.Machine

/-! ### The assembler's lines (30_encoding.md R85, R86) -/

/-- What assembles is what a line's instruction encodes to. -/
theorem assemble_eq_map (line : String) : assemble line = (assembleChars line.toList).map encode := by
  unfold assemble
  cases assembleChars line.toList <;> rfl

theorem assembleChars_ok {cs : List Char} {i : Instr} (h : assembleChars cs = .ok i) :
    i.wf = true ∧ ∃ cw, encode i = .command cw :=
  asmLine_ok h

theorem assemble_ok {line : String} {c : Code} (h : assemble line = .ok c) :
    ∃ i, assembleChars line.toList = .ok i ∧ c = encode i := by
  rw [assemble_eq_map] at h
  cases hi : assembleChars line.toList with
  | ok i => rw [hi] at h; cases h; exact ⟨i, rfl, rfl⟩
  | error e => rw [hi] at h; cases h

theorem assemble_one {line m : String} {x : List Char} (hl : line.toList = m.toList ++ ' ' :: x)
    (hm : PlainText (m.toList.map lowerChar)) (hx : PlainText x) :
    assemble line = (asmLine (m.toList.map lowerChar) [x]).map encode := by
  rw [assemble_eq_map, hl, assembleChars_one _ x hm hx]

theorem assemble_two {line m : String} {x y : List Char}
    (hl : line.toList = m.toList ++ ' ' :: (x ++ ',' :: ' ' :: y)) (hm : PlainText (m.toList.map lowerChar))
    (hx : PlainText x) (hy : PlainText y) :
    assemble line = (asmLine (m.toList.map lowerChar) [x, y]).map encode := by
  rw [assemble_eq_map, hl, assembleChars_two _ x y hm hx hy]

theorem map_encode_ifInRange (i : Instr) :
    (ifInRange i).map encode = if i.wf then .ok (encode i) else .error .badOperand := by
  cases h : i.wf <;> simp [ifInRange, h, Except.map]

theorem asm1_of_some {α : Type} {f : List Char → Option α} (mk : α → Instr) {x : List Char} {a : α}
    (h : f x = some a) : asm1 f mk [x] = ifInRange (mk a) := by
  simp [asm1, h]

theorem asm1_of_none {α : Type} {f : List Char → Option α} (mk : α → Instr) {x : List Char} (h : f x = none) :
    asm1 f mk [x] = .error .badOperand := by
  simp [asm1, h]

theorem asm2_of_some {α β : Type} {f : List Char → Option α} {g : List Char → Option β} (mk : α → β → Instr)
    {x y : List Char} {a : α} {b : β} (hx : f x = some a) (hy : g y = some b) :
    asm2 f g mk [x, y] = ifInRange (mk a b) := by
  simp [asm2, hx, hy]

theorem asm2_of_none {α β : Type} {f : List Char → Option α} {g : List Char → Option β} (mk : α → β → Instr)
    {x y : List Char} (hx : f x = none) : asm2 f g mk [x, y] = .error .badOperand := by
  simp [asm2, hx]

theorem boolOperand_toNat (b : Bool) : boolOperand (Nat.toDigits 10 b.toNat) = some b := by
  cases b <;> rfl

theorem boolOperand_of_two_le {n : Nat} (h : 2 ≤ n) : boolOperand (Nat.toDigits 10 n) = none := by
  rw [boolOperand_decimal, if_neg (by omega), if_neg (by omega)]

theorem exists_toNat_of_lt_two {n : Nat} (h : n < 2) : ∃ b : Bool, n = b.toNat := by
  interval_cases n
  · exact ⟨false, rfl⟩
  · exact ⟨true, rfl⟩

theorem brOperandOk_iff {br : Int} : brOperandOk br = true ↔ -128 ≤ br ∧ br ≤ 127 := by
  simp [brOperandOk]

theorem plainText_decimal (n : Nat) : PlainText (Nat.toDigits 10 n) := plainText_toDigits (by decide) (by decide) n

/-- A command of one flag (30_encoding.md R85: ENABLE, COLON). -/
theorem map_encode_asm1_bool {mk : Bool → Instr} {base : Nat} (hw : ∀ on, (mk on).wf = true)
    (hword : ∀ on, encode (mk on) = .command (BitVec.ofNat 16 (base + 256 * on.toNat))) (n : Nat) :
    (asm1 boolOperand mk [Nat.toDigits 10 n]).map encode =
      if n < 2 then .ok (.command (BitVec.ofNat 16 (base + 256 * n))) else .error .badOperand := by
  by_cases hn : n < 2
  · obtain ⟨on, rfl⟩ := exists_toNat_of_lt_two hn
    rw [asm1_of_some mk (boolOperand_toNat on), map_encode_ifInRange, hw, hword, if_pos rfl, if_pos hn]
  · rw [asm1_of_none mk (boolOperand_of_two_le (by omega)), if_neg hn]
    rfl

/-- The mnemonics that take operands, as R85 and R86 print them. -/
theorem plainText_mnemonic : ∀ m ∈ ["INIT", "ENABLE", "SETBR", "DIGIT", "COLON", "BLANK"],
    PlainText (m.toList.map lowerChar) := by
  have all : ∀ m ∈ ["INIT", "ENABLE", "SETBR", "DIGIT", "COLON", "BLANK"],
      (m.toList.map lowerChar).all plainChar = true ∧ m.toList.map lowerChar ≠ [] := by decide
  intro m hm
  obtain ⟨hplain, hne⟩ := all m hm
  exact ⟨List.all_eq_true.mp hplain, hne⟩

theorem assemble_init (en : Nat) (br : Int) : assemble ("INIT " ++ toString en ++ ", " ++ toString br) =
    if en < 2 ∧ -128 ≤ br ∧ br ≤ 127 then .ok (.command (BitVec.ofNat 16 (0x1000 + 256 * en + (br % 256).toNat)))
    else .error .badOperand := by
  have hline : assemble ("INIT " ++ toString en ++ ", " ++ toString br) =
      (asm2 boolOperand brOperand .init [Nat.toDigits 10 en, (toString br).toList]).map encode :=
    assemble_two (m := "INIT") (by simp [Nat.toList_repr]) (plainText_mnemonic _ (by simp))
      (plainText_decimal en) (plainText_toString_int br)
  rw [hline]
  by_cases hen : en < 2
  · obtain ⟨flag, rfl⟩ := exists_toNat_of_lt_two hen
    rw [asm2_of_some .init (boolOperand_toNat flag) (brOperand_toString br), map_encode_ifInRange, encode_init,
      Instr.wf]
    simp only [brOperandOk_iff, hen, true_and]
  · rw [asm2_of_none .init (boolOperand_of_two_le (by omega)), if_neg (fun h => hen h.1)]
    rfl

theorem assemble_enable (on : Nat) : assemble ("ENABLE " ++ toString on) =
    if on < 2 then .ok (.command (BitVec.ofNat 16 (0x2000 + 256 * on))) else .error .badOperand :=
  (assemble_one (m := "ENABLE") (by simp [Nat.toList_repr]) (plainText_mnemonic _ (by simp))
    (plainText_decimal on)).trans (map_encode_asm1_bool (fun _ => rfl) encode_enable on)

theorem assemble_colon (on : Nat) : assemble ("COLON " ++ toString on) =
    if on < 2 then .ok (.command (BitVec.ofNat 16 (0x5000 + 256 * on))) else .error .badOperand :=
  (assemble_one (m := "COLON") (by simp [Nat.toList_repr]) (plainText_mnemonic _ (by simp))
    (plainText_decimal on)).trans (map_encode_asm1_bool (fun _ => rfl) encode_colon on)

theorem assemble_setbr (br : Int) : assemble ("SETBR " ++ toString br) =
    if -128 ≤ br ∧ br ≤ 127 then .ok (.command (BitVec.ofNat 16 (0x3000 + (br % 256).toNat)))
    else .error .badOperand := by
  have hline : assemble ("SETBR " ++ toString br) = (asm1 brOperand .setbr [(toString br).toList]).map encode :=
    assemble_one (m := "SETBR") (by simp) (plainText_mnemonic _ (by simp)) (plainText_toString_int br)
  rw [hline, asm1_of_some .setbr (brOperand_toString br), map_encode_ifInRange, encode_setbr, Instr.wf]
  simp only [brOperandOk_iff]

/-- Raw bits are read as the integer whose eight bits they are, so they come back in the word. -/
theorem assemble_setbr_hex (v : Nat) : assemble ("SETBR 0x" ++ String.ofList (Nat.toDigits 16 v)) =
    if v < 256 then .ok (.command (BitVec.ofNat 16 (0x3000 + v))) else .error .badOperand := by
  have hplain : PlainText ('0' :: 'x' :: Nat.toDigits 16 v) :=
    ((plainText_toDigits (by decide) (by decide) v).cons (by decide)).cons (by decide)
  have hline : assemble ("SETBR 0x" ++ String.ofList (Nat.toDigits 16 v)) =
      (asm1 brOperand .setbr ['0' :: 'x' :: Nat.toDigits 16 v]).map encode :=
    assemble_one (m := "SETBR") (by simp) (plainText_mnemonic _ (by simp)) hplain
  have hop := brOperand_hex v
  rw [hline]
  by_cases hv : v < 256
  · rw [if_pos hv] at hop ⊢
    rw [asm1_of_some .setbr hop, map_encode_ifInRange, Instr.wf, brOperandOk_toInt, encode, BitVec.ofInt_toInt,
      commandWord_eq_ofNat, BitVec.toNat_ofNat, Nat.mod_eq_of_lt hv]
    rfl
  · rw [if_neg hv] at hop ⊢
    rw [asm1_of_none .setbr hop]
    rfl

theorem ite_wf_digit (pos d : Nat) :
    (if (Instr.digit pos d).wf then Except.ok (encode (.digit pos d)) else .error AsmError.badOperand) =
      if pos < 16 ∧ d < 256 then .ok (.command (BitVec.ofNat 16 (0x4000 + 256 * pos + d))) else .error .badOperand := by
  by_cases h : pos < 16 ∧ d < 256
  · obtain ⟨hpos, hd⟩ := h
    simp [Instr.wf, hpos, hd, encode_digit hpos hd]
  · rw [if_neg h, if_neg (by simpa [Instr.wf] using h)]

theorem assemble_digit (pos d : Nat) : assemble ("DIGIT " ++ toString pos ++ ", " ++ toString d) =
    if pos < 16 ∧ d < 256 then .ok (.command (BitVec.ofNat 16 (0x4000 + 256 * pos + d))) else .error .badOperand := by
  have hline : assemble ("DIGIT " ++ toString pos ++ ", " ++ toString d) =
      (asm2 unsignedOperand unsignedOperand .digit [Nat.toDigits 10 pos, Nat.toDigits 10 d]).map encode :=
    assemble_two (m := "DIGIT") (by simp [Nat.toList_repr]) (plainText_mnemonic _ (by simp))
      (plainText_decimal pos) (plainText_decimal d)
  rw [hline, asm2_of_some .digit (unsignedOperand_decimal pos) (unsignedOperand_decimal d), map_encode_ifInRange,
    ite_wf_digit]

/-- BLANK is DIGIT with the digit 10 (30_encoding.md R86). -/
theorem assemble_blank (pos : Nat) : assemble ("BLANK " ++ toString pos) =
    if pos < 16 then .ok (.command (BitVec.ofNat 16 (0x400A + 256 * pos))) else .error .badOperand := by
  have hline : assemble ("BLANK " ++ toString pos) =
      (asm1 unsignedOperand (fun p => (Pseudo.blank p).expand) [Nat.toDigits 10 pos]).map encode :=
    assemble_one (m := "BLANK") (by simp [Nat.toList_repr]) (plainText_mnemonic _ (by simp))
      (plainText_decimal pos)
  have hsum : 0x4000 + 256 * pos + 10 = 0x400A + 256 * pos := by omega
  rw [hline, asm1_of_some _ (unsignedOperand_decimal pos), map_encode_ifInRange, Pseudo.expand, ite_wf_digit, hsum]
  simp

theorem assemble_fixed_lines :
    assemble "CLEAR" = .ok (.command 0x6000) ∧ assemble "ON" = .ok (.command 0x2100) ∧
    assemble "OFF" = .ok (.command 0x2000) ∧ assemble "ENABLE on" = .ok (.command 0x2100) ∧
    assemble "COLON off" = .ok (.command 0x5000) := by
  decide

/-- Settles O11: whatever assembles is a well-formed command, and each line of R85 and R86 is read operand by
operand. -/
theorem assembledWordsDecodeBack : Obligations.AssembledWordsDecodeBack := by
  refine ⟨fun line c h => ?_, assemble_init, assemble_enable, assemble_setbr, assemble_setbr_hex, assemble_digit,
    assemble_colon, assemble_blank, assemble_fixed_lines⟩
  obtain ⟨i, hi, rfl⟩ := assemble_ok h
  obtain ⟨hw, cw, hcw⟩ := assembleChars_ok hi
  exact ⟨i, cw, hi, hcw, hcw, hw, decodeCommand_of_encode hw hcw⟩

/-! ### The wire bytes as numbers (30_encoding.md R78, R79) -/

/-- Settles O9: the position's two low bits are those of its low byte. -/
theorem addressByteIsPositionModFour : Obligations.AddressByteIsPositionModFour := by
  intro pos
  have hbyte : ∀ v : Byte, 0xC0 ||| (v &&& Config.posMask) = BitVec.ofNat 8 (0xC0 + v.toNat % 4) := by decide
  have hmod : pos % 256 % 4 = pos % 4 := by omega
  rw [addrByte, hbyte, BitVec.toNat_ofNat, hmod]

/-- The three fields of the byte do not overlap, so it is their sum. -/
theorem toNat_dispCtrlByte (on : Bool) (br : BitVec 3) :
    (dispCtrlByte on br).toNat = 0x80 + 8 * on.toNat + br.toNat := by
  revert on br; decide

theorem dispCtrlByte_eq_ofNat (on : Bool) (br : BitVec 3) :
    dispCtrlByte on br = BitVec.ofNat 8 (0x80 + 8 * on.toNat + br.toNat) := by
  rw [← toNat_dispCtrlByte, BitVec.ofNat_toNat, BitVec.setWidth_eq]

/-- Settles O10: the fields are those of sixteen bytes, and the byte with the number `0x80 + n` is on from `n = 8`. -/
theorem displayControlByteFields : Obligations.DisplayControlByteFields := by
  refine ⟨fun on br => ⟨rfl, ?_, ?_, ?_, toNat_dispCtrlByte on br⟩, fun n hn => ?_, rfl, rfl⟩
  · revert on br; decide
  · revert on br; decide
  · revert on br; decide
  · have hsum : 8 * (decide (8 ≤ n)).toNat + n % 8 = n := by
      by_cases h : 8 ≤ n <;> simp [h] <;> omega
    refine ⟨decide (8 ≤ n), BitVec.ofNat 3 n, ?_, rfl⟩
    rw [dispCtrlByte_eq_ofNat, BitVec.toNat_ofNat, Nat.add_assoc, hsum]

/-- Settles O8: the words are the spec's, evaluated. -/
theorem specWordsDecode : Obligations.SpecWordsDecode := by
  unfold Obligations.SpecWordsDecode
  decide

/-! ### An illegal word -/

theorem writeCmd_of_error {cw : Word} {e : DecodeReject} (h : decodeCommand cw = .error e) (s : State) :
    writeCmd cw s = illegalWord s := by
  rw [writeCmd, h]

/-- Settles O14: neither halted nor busy, the checks before decoding let the word through to its fault. -/
theorem illegalWordRaisesIllegal : Obligations.IllegalWordRaisesIllegal := by
  intro s cw k e hin hd hf hb
  rw [step_write hin, writeCmd_of_error hd]
  obtain ⟨hf', -⟩ | ⟨-, hb', -⟩ | ⟨-, -, hraise⟩ := illegalWord_cases { s with inputs := k }
  · exact absurd hf hf'
  · exact absurd (hb.symm.trans hb') nofun
  · exact hraise

/-! ### The wire bytes as instructions (30_encoding.md R76 to R80) -/

/-- A wire byte sent without a fault is its stretch of the frame. -/
theorem exec_wireByte {i : Instr} (hi : ¬ IsHostCommand i) {s : State} (hf : s.fault = .noFault) :
    exec i s = .next (instrBody i s) := by
  obtain hc | ⟨-, hseq⟩ := isHostCommand_or_sequencer i s
  · exact absurd hc hi
  obtain ⟨hne, -⟩ | ⟨-, hnext⟩ := sequencerStep_cases (instrBody i) s
  · exact absurd hf hne
  · exact hseq.trans hnext

/-- Lines driven high are idle where CLK is an output (10_state.md R36). -/
theorem pins_high_eq_idle {p : Pins} (hc : p.clkDir = .output) :
    { p with clkOut := true, dioDir := .output, dioOut := true } = Pins.idle := by
  rw [Pins.idle, ← hc]

/-- So a whole frame sent from idle lines leaves the pins as they were. -/
theorem pins_high_eq_self {p : Pins} (hp : p = Pins.idle) :
    { p with clkOut := true, dioDir := .output, dioOut := true } = p :=
  (pins_high_eq_idle (congrArg Pins.clkDir hp)).trans hp.symm

/-- Settles O29: SEND_CMD of the data command byte. -/
theorem dataCmdFixedCompletes : Obligations.DataCmdFixedCompletes := by
  intro s hf hp
  refine ⟨cmdEvents dataCmdByte (s.drawAt 0), ?_, ?_, samplesOf_cmdEvents _ _⟩
  · rw [exec_wireByte (i := .dataCmdFixed) nofun hf, instrBody, sendCmd_eq, pins_high_eq_self hp]
    rfl
  · rw [hp, framesFrom_cmdEvents]
    rfl

theorem clampBr_natCast {br : Nat} (h : br < 8) : clampBr br = BitVec.ofNat 3 br := by
  have := clampBr_toNat (BitVec.ofNat 3 br)
  rwa [BitVec.toNat_ofNat, Nat.mod_eq_of_lt h] at this

/-- Settles O31: SEND_CFG, whose clamp leaves a brightness of three bits as it is. -/
theorem dispCtrlCompletes : Obligations.DispCtrlCompletes := by
  intro s on br hbr hf hp
  refine ⟨cmdEvents (dispCtrlByte on (BitVec.ofNat 3 br)) (s.drawAt 0), ?_, ?_, samplesOf_cmdEvents _ _⟩
  · rw [exec_wireByte (i := .dispCtrl on br) nofun hf, instrBody, sendCfg_eq, pins_high_eq_self hp, clampBr_natCast hbr]
    rfl
  · rw [hp, framesFrom_cmdEvents, dispCtrlByte_eq_ofNat, BitVec.toNat_ofNat, Nat.mod_eq_of_lt hbr]

/-- START and XFER on idle lines open a frame that holds the byte. -/
theorem watch_start_xfer (b : Byte) (a : Bool) :
    (Monitor.attach Pins.idle).watch (startEvents ++ xferEvents b a) =
      { pins := { Pins.idle with clkOut := false, dioOut := !a }, frame := some [b], bits := [], frames := [] } := by
  rw [watch_append, watch_startEvents _ rfl rfl, watch_xferEvents _ [] b a rfl rfl rfl rfl]
  rfl

theorem addrSetBody_eq (pos : Nat) (s : State) :
    instrBody (.addrSet pos) s = { s with
      pins := { s.pins with clkOut := false, dioDir := .output, dioOut := !s.drawAt 0 }, segNext := true,
      trace := s.trace ++ (startEvents ++ xferEvents (addrByte pos) (s.drawAt 0)),
      acks := s.acks ++ [s.drawAt 0], draws := s.draws.drop 1, drawCount := s.drawCount + 1 } := by
  have hdraw : drawDio (start s) = s.drawAt 0 := drawAt_eq_drawDio s _ 0 (by simp [start_eq]) (by simp [start_eq])
  rw [instrBody, xfer_eq, hdraw, start_eq]
  simp

/-- Settles O30: START and XFER, after which the frame holds its address byte. -/
theorem addrSetCompletes : Obligations.AddrSetCompletes := by
  intro s pos hf hp
  have hwatch := watch_start_xfer (addrByte pos) (s.drawAt 0)
  refine ⟨startEvents ++ xferEvents (addrByte pos) (s.drawAt 0), ?_, ?_, ?_, ?_⟩
  · rw [exec_wireByte (i := .addrSet pos) nofun hf, addrSetBody_eq, hp]
    rfl
  · rw [hp, hwatch, addressByteIsPositionModFour]
  · rw [hp, framesFrom, hwatch]
  · rw [samplesOf_append, samplesOf_xferEvents]
    rfl

theorem segDataBody_eq (seg : Byte) (s : State) :
    instrBody (.segData seg) s = { s with
      pins := { s.pins with clkOut := true, dioDir := .output, dioOut := true }, segNext := false,
      trace := s.trace ++ (xferEvents seg (s.drawAt 0) ++ stopEvents),
      acks := s.acks ++ [s.drawAt 0], draws := s.draws.drop 1, drawCount := s.drawCount + 1 } := by
  have hdraw : drawDio s = s.drawAt 0 := drawAt_eq_drawDio s s 0 rfl rfl
  rw [instrBody, stop_eq, xfer_eq, hdraw]
  simp

/-- XFER and STOP in an open frame: the byte joins it and it closes. -/
theorem watch_xfer_stop {m : Monitor} {bytes : List Byte} (v : Byte) (a : Bool) (hf : m.frame = some bytes)
    (hb : m.bits = []) (hc : m.pins.clkDir = .output) (hd : m.pins.dioDir = .output) :
    m.watch (xferEvents v a ++ stopEvents) =
      { pins := Pins.idle, frame := none, bits := [], frames := m.frames ++ [bytes ++ [v]] } := by
  rw [watch_append, watch_xferEvents m bytes v a hf hb hc hd]
  exact watch_stopEvents _ (bytes ++ [v]) rfl hb hc rfl hd

/-- Settles O32: XFER and STOP, in a frame that some START before opened. -/
theorem segDataCompletes : Obligations.SegDataCompletes := by
  intro s seg hf hcd hco hdd
  refine ⟨xferEvents seg (s.drawAt 0) ++ stopEvents, ?_, ?_, fun m bytes hmp hmf hmb => ?_⟩
  · rw [exec_wireByte (i := .segData seg) nofun hf, segDataBody_eq, pins_high_eq_idle hcd]
    rfl
  · rw [samplesOf_append, samplesOf_xferEvents]
    rfl
  · exact watch_xfer_stop seg (s.drawAt 0) hmf hmb (hmp ▸ hcd) (hmp ▸ hdd)

end Sys2Proof.Machine

/-! PROOFS. The bit-level transport (40_transport.md): the line state and the clock edges of XFER, the edges of START
and STOP, and the events of one byte written out. -/

namespace Sys2Proof.Machine

/-! ### XFER with the next draw (40_transport.md R108, R110) -/

theorem drawDio_eq_drawAt (s : State) : drawDio s = s.drawAt 0 := drawAt_eq_drawDio s s 0 rfl rfl

theorem xfer_eq_drawAt (v : Byte) (s : State) :
    xfer v s = { s with
      pins := { s.pins with clkOut := false, dioDir := .output, dioOut := !s.drawAt 0 },
      trace := s.trace ++ xferEvents v (s.drawAt 0),
      draws := s.draws.drop 1, drawCount := s.drawCount + 1, acks := s.acks ++ [s.drawAt 0] } := by
  rw [xfer_eq, drawDio_eq_drawAt, List.drop_one]

/-- Settles O34: all that XFER writes, with the draw it takes. -/
theorem transferLineState : Obligations.TransferLineState := by
  intro v s
  rw [xfer_eq_drawAt]
  exact ⟨rfl, rfl, rfl⟩

/-! ### Edges of a data clock (R106) -/

theorem risingEdges_append (p : Pins) (es fs : List WireEvent) :
    risingEdges p (es ++ fs) = risingEdges p es + risingEdges (p.applyAll es) fs := by
  induction es generalizing p with
  | nil => exact (Nat.zero_add _).symm
  | cons e es ih => simp only [List.cons_append, risingEdges, ih, applyAll_cons, Nat.add_assoc]

theorem dioEdgesWhileHigh_append (p : Pins) (es fs : List WireEvent) :
    dioEdgesWhileHigh p (es ++ fs) = dioEdgesWhileHigh p es + dioEdgesWhileHigh (p.applyAll es) fs := by
  induction es generalizing p with
  | nil => exact (Nat.zero_add _).symm
  | cons e es ih => simp only [List.cons_append, dioEdgesWhileHigh, ih, applyAll_cons, Nat.add_assoc]

/-- CLK falls first, so DIO takes its bit while CLK is low, and the one edge counted is the rise after it. -/
theorem edges_bitEvents {p : Pins} (hc : p.clkDir = .output) (b : Bool) :
    risingEdges p (bitEvents b) = 1 ∧ dioEdgesWhileHigh p (bitEvents b) = 0 := by
  simp +contextual [bitEvents, risingEdges, dioEdgesWhileHigh, Pins.apply, clkRises, isStart, isStop, clkHigh,
    Pins.clkLevel, hc]

theorem edges_bits (bs : List Bool) {p : Pins} (hc : p.clkDir = .output) :
    risingEdges p (bs.flatMap bitEvents) = bs.length ∧ dioEdgesWhileHigh p (bs.flatMap bitEvents) = 0 := by
  induction bs generalizing p with
  | nil => exact ⟨rfl, rfl⟩
  | cons b bs ih =>
    obtain ⟨hr, hd⟩ := edges_bitEvents hc b
    obtain ⟨ihr, ihd⟩ := ih (p := p.applyAll (bitEvents b)) hc
    rw [List.flatMap_cons, risingEdges_append, dioEdgesWhileHigh_append, hr, hd, ihr, ihd, List.length_cons]
    exact ⟨Nat.add_comm 1 _, rfl⟩

/-! ### Edges of XFER (R107, R109) -/

/-- The acknowledgement phase begins with CLK falling and holds it low. -/
theorem edges_ackOpenEvents {p : Pins} (hc : p.clkDir = .output) :
    risingEdges p ackOpenEvents = 0 ∧ dioEdgesWhileHigh p ackOpenEvents = 0 := by
  simp [ackOpenEvents, risingEdges, dioEdgesWhileHigh, Pins.apply, clkRises, isStart, isStop, clkHigh,
    Pins.clkLevel, hc]

/-- Up to the sample: one rising edge for each data bit. -/
theorem edges_data_ackOpen (v : Byte) {p : Pins} (hc : p.clkDir = .output) :
    risingEdges p (dataEvents v ++ ackOpenEvents) = 8 ∧ dioEdgesWhileHigh p (dataEvents v ++ ackOpenEvents) = 0 := by
  obtain ⟨hr, hd⟩ := edges_bits (wireBits v) hc
  obtain ⟨hcd, -⟩ := applyAll_bits_dirs (wireBits v) p
  obtain ⟨hr', hd'⟩ := edges_ackOpenEvents (hcd.trans hc)
  rw [risingEdges_append, dioEdgesWhileHigh_append, dataEvents, hr, hd, hr', hd']
  exact ⟨rfl, rfl⟩

/-- From the sample on: the ninth clock, with DIO driven, if at all, while CLK is low. -/
theorem edges_xferEvents (v : Byte) (a : Bool) {p : Pins} (hc : p.clkDir = .output) :
    risingEdges p (xferEvents v a) = 9 ∧ dioEdgesWhileHigh p (xferEvents v a) = 0 := by
  obtain ⟨hr, hd⟩ := edges_data_ackOpen v hc
  rw [xferEvents, risingEdges_append, dioEdgesWhileHigh_append, applyAll_data_ackOpen, hr, hd, hc]
  cases a <;> exact ⟨rfl, rfl⟩

/-! ### The clock events, the sample and the drive-low of XFER -/

/-- The events that set CLK, in order. -/
def clockEvents (es : List WireEvent) : List WireEvent := es.filter (fun e => e == .setClk true || e == .setClk false)

/-- `n` clocks: CLK falls and rises. -/
def clocks (n : Nat) : List WireEvent := (List.replicate n [WireEvent.setClk false, .setClk true]).flatten

theorem clockEvents_append (es fs : List WireEvent) : clockEvents (es ++ fs) = clockEvents es ++ clockEvents fs :=
  List.filter_append es fs

theorem clockEvents_bits (bs : List Bool) : clockEvents (bs.flatMap bitEvents) = clocks bs.length := by
  induction bs with
  | nil => rfl
  | cons b bs ih =>
    have hb : clockEvents (bitEvents b) = [.setClk false, .setClk true] := by cases b <;> rfl
    rw [List.flatMap_cons, clockEvents_append, hb, ih]
    rfl

theorem clockEvents_xferEvents (v : Byte) (a : Bool) : clockEvents (xferEvents v a) = clocks 9 ++ [.setClk false] := by
  rw [xferEvents, clockEvents_append, clockEvents_append, dataEvents, clockEvents_bits]
  cases a <;> rfl

theorem mem_samplesOf {es : List WireEvent} {a : Bool} : a ∈ samplesOf es ↔ .sample a ∈ es := by
  rw [samplesOf, List.mem_filterMap]
  constructor
  · rintro ⟨e, he, hea⟩
    cases e with
    | sample b => cases hea; exact he
    | configureLines | setClk | setDio | dioDir | driveDioLow | delay => cases hea
  · exact fun h => ⟨_, h, rfl⟩

/-- Before its sample XFER has made the data clocks and released DIO. -/
theorem takeWhile_xferEvents (v : Byte) (a : Bool) :
    (xferEvents v a).takeWhile (fun e => e != .sample a) = dataEvents v ++ ackOpenEvents := by
  have hnone : samplesOf (dataEvents v ++ ackOpenEvents) = [] := by
    rw [samplesOf_append, dataEvents, samplesOf_bits]
    rfl
  have hbefore : ∀ e ∈ dataEvents v ++ ackOpenEvents, (e != .sample a) = true := by
    refine fun e he => bne_iff_ne.mpr ?_
    rintro rfl
    exact absurd (hnone ▸ mem_samplesOf.mpr he) List.not_mem_nil
  rw [xferEvents, List.takeWhile_append_of_pos hbefore]
  simp

theorem count_driveDioLow_xferEvents (v : Byte) (a : Bool) : (xferEvents v a).count .driveDioLow = a.toNat := by
  have hdata : (dataEvents v).count .driveDioLow = 0 := List.count_eq_zero.mpr (by simp [dataEvents, bitEvents])
  rw [xferEvents, List.count_append, List.count_append, hdata]
  cases a <;> rfl

/-- Settles O33: eight clocks with the data bits, the sample, and the ninth clock. -/
theorem transferHasNineClocks : Obligations.TransferHasNineClocks := by
  intro v s hc
  obtain ⟨hrise, hdio⟩ := edges_xferEvents v (s.drawAt 0) hc
  obtain ⟨hlen, hdelays⟩ := counts_xferEvents v (s.drawAt 0)
  refine ⟨xferEvents v (s.drawAt 0), ?_, hrise, hdio, clockEvents_xferEvents v _, ?_, hlen, hdelays,
    samplesOf_xferEvents v _, count_driveDioLow_xferEvents v _⟩
  · rw [xfer_eq_drawAt]
  · rw [takeWhile_xferEvents]
    exact (edges_data_ackOpen v hc).1

/-! ### START and STOP (R102 to R105) -/

/-- CLK rises once DIO is low, and DIO then rises while CLK is high: the DIO latch before does not matter. -/
theorem edges_stopEvents {p : Pins} (hc : p.clkDir = .output) (hk : p.clkOut = false) (hd : p.dioDir = .output) :
    dioEdgesWhileHigh p stopEvents = 1 ∧ risingEdges p stopEvents = 1 := by
  simp [stopEvents, risingEdges, dioEdgesWhileHigh, Pins.apply, clkRises, isStart, isStop, clkHigh, Pins.clkLevel,
    Pins.dioLevel, hc, hk, hd]

/-- Settles O35: from idle lines START is one fixed run of events; STOP sets DIO low itself before CLK rises. -/
theorem startAndStopEdges : Obligations.StartAndStopEdges := by
  refine ⟨fun s hp => ⟨startEvents, ?_, ?_⟩, fun s hc hk hd => ⟨stopEvents, ?_, ?_⟩⟩
  · rw [start_eq, hp]
    rfl
  · rw [hp]
    exact ⟨rfl, rfl, rfl, rfl⟩
  · rw [stop_eq, ← pins_high_eq_idle hc, ← hd]
  · obtain ⟨hdio, hrise⟩ := edges_stopEvents hc hk hd
    exact ⟨hdio, hrise, rfl, rfl⟩

/-! ### The events of one byte (95_test_vectors.md T3) -/

/-- Settles O36: the bits of 0x8F in wire order, then the acknowledgement phase with the sample 1. -/
theorem transferEventsOf8F : Obligations.TransferEventsOf8F := by
  intro s hs
  have hdraw : drawDio s = true := by rw [drawDio, hs]
  have hbits : wireBits 0x8F = [true, true, true, true, false, false, false, true] := by decide
  rw [xfer_eq, hdraw, xferEvents, dataEvents, hbits]
  rfl

end Sys2Proof.Machine

/-! PROOFS. The host commands (42_display.md): the whole next state of each, its frames, its samples and its traffic;
COLON and DIGIT at position 1 in either order; the port reads. -/

namespace Sys2Proof.Machine

/-! ### The port reads (42_display.md R157) -/

theorem step_eq_takeInput {s : State} {m : Input} {k : List Input} (h : s.inputs = m :: k) :
    step s = takeInput writeCmd idleSlot m { s with inputs := k } := by
  rw [step, runSlot, h]

theorem microStep_eq_takeInput {s : State} {m : Input} {k : List Input} (h : s.inputs = m :: k) :
    microStep s = takeInput microWrite microIdle m { s with inputs := k } := by
  rw [microStep, h]

/-- Settles O15: a read is the same move in both models, and it looks at no check. -/
theorem portReadsHaveNoEffect : Obligations.PortReadsHaveNoEffect := by
  intro s k
  refine ⟨fun h => ?_, fun h => ?_⟩
  · rw [step_eq_takeInput h, microStep_eq_takeInput h]
    exact ⟨rfl, rfl⟩
  · rw [step_eq_takeInput h, microStep_eq_takeInput h]
    exact ⟨rfl, rfl⟩

/-! ### The events of a command -/

/-- The events of a host command accepted in the state (42_display.md R151 to R156); a wire byte is no command. -/
def commandEvents : Instr → State → List WireEvent
  | .init en br, s => .configureLines :: cmdEvents (dispCtrlByte en (clampBr br)) (s.drawAt 0)
  | .enable on, s => cmdEvents (dispCtrlByte on s.cfgBr) (s.drawAt 0)
  | .setbr br, s => cmdEvents (dispCtrlByte s.cfgOn (clampBr br)) (s.drawAt 0)
  | .digit pos digit, s => segEvents pos (digitByte pos digit s) (s.drawAt 0) (s.drawAt 1) (s.drawAt 2)
  | .colon on, s =>
    segEvents Config.colonPos (withColon on s.segcache) (s.drawAt 0) (s.drawAt 1) (s.drawAt 2)
  | .clear, s => clearEvents s.drawAt
  | .dataCmdFixed, _ | .addrSet _, _ | .dispCtrl _ _, _ | .segData _, _ => []

/-- A command's body writes its registers, leaves both lines high, puts its events on the trace and takes its draws. -/
theorem commandBody_eq {i : Instr} (hi : IsHostCommand i) (s : State) :
    commandBody i s = { registerWrites i s with
      pins := { (registerWrites i s).pins with clkOut := true, dioDir := .output, dioOut := true },
      trace := s.trace ++ commandEvents i s,
      draws := s.draws.drop (bytesSent i), drawCount := s.drawCount + bytesSent i,
      acks := s.acks ++ s.nextDraws (bytesSent i) } := by
  cases hi with
  | init en br =>
    rw [commandBody, sendCfg_eq, commandEvents, List.append_cons s.trace]
    rfl
  | enable | setbr =>
    simp only [commandBody, sendCfg_eq, clampBr_toNat, clampBr_clamp]
    rfl
  | digit | colon =>
    rw [commandBody, writeSeg_eq]
    rfl
  | clear =>
    rw [commandBody, blankAll_eq]
    rfl

theorem commandEvents_accept (i : Instr) (s : State) : commandEvents i (accept s) = commandEvents i s := by
  cases i <;> rfl

theorem trace_afterCommand {i : Instr} (hi : IsHostCommand i) (s : State) :
    (afterCommand i s).trace = s.trace ++ commandEvents i s := by
  rw [afterCommand, commandBody_eq hi, commandEvents_accept]
  rfl

/-- RESULT as the number of 10_state.md R28: the count in the upper four bits, the acknowledgement bits below. -/
theorem packResult_eq_ofNat {acks : List Bool} (h : acks.length ≤ 12) :
    packResult acks = BitVec.ofNat 16 (acks.length * 0x1000 + bitsToNat acks) := by
  rw [← toNat_packResult acks h, BitVec.ofNat_toNat, BitVec.setWidth_eq]

/-- RESULT after a command that sends `n` bytes (42_display.md R150). -/
theorem packResult_nextDraws {n count : Nat} (hn : n ≤ 12) (hcount : n * 0x1000 = count) (s : State) :
    packResult (s.nextDraws n) = BitVec.ofNat 16 (count + bitsToNat (s.nextDraws n)) := by
  rw [packResult_eq_ofNat (by simpa using hn), nextDraws_length, hcount]

/-- The whole state a command leaves, where it found the engine at rest and CLK is an output: its registers, idle lines,
RESULT, the trace and the draws. -/
theorem afterCommand_eq {i : Instr} (hi : IsHostCommand i) {s : State} (hq : s.Quiet)
    (hclk : (registerWrites i s).pins.clkDir = .output) :
    afterCommand i s = { registerWrites i s with
      pins := Pins.idle, result := packResult (s.nextDraws (bytesSent i)), trace := s.trace ++ commandEvents i s,
      draws := s.draws.drop (bytesSent i), drawCount := s.drawCount + bytesSent i } := by
  have hbusy : (registerWrites i s).busy = false := (registerWrites_busy i s).trans hq.busy
  have hacks : (registerWrites i s).acks = [] := by cases hi <;> exact hq.acks
  rw [afterCommand, commandBody_eq hi, registerWrites_accept, commandEvents_accept, pins_high_eq_idle hclk]
  simp only [complete, hbusy, hacks]
  rfl

/-! ### What a monitor reads off the events of a command -/

/-- INIT's first event leaves a monitor on lines in any state as one on idle lines (42_display.md R151). -/
theorem framesFrom_configureLines (p : Pins) (es : List WireEvent) :
    framesFrom p (.configureLines :: es) = framesFrom Pins.idle es := by
  rw [framesFrom, watch_cons, see_configureLines _ rfl]
  rfl

/-- The frames of a command's events, on idle lines, or where INIT makes them idle. -/
theorem framesFrom_commandEvents {i : Instr} (hi : IsHostCommand i) {s : State}
    (hp : isInit i = true ∨ s.pins = Pins.idle) : framesFrom s.pins (commandEvents i s) = commandFrames i s := by
  obtain hn | hp := hp
  · obtain ⟨en, br, rfl⟩ := exists_init_of_isInit hn
    rw [commandEvents, framesFrom_configureLines, framesFrom_cmdEvents, commandFrames]
  · obtain ⟨evs, htrace, hframes⟩ := (sendsFrames_afterCommand hi s).framesFrom_eq hp
    rw [trace_afterCommand hi, List.append_cancel_left_eq] at htrace
    rw [htrace, hframes]

/-- Each byte of a command takes one sample. -/
theorem samplesOf_commandEvents {i : Instr} (hi : IsHostCommand i) (s : State) :
    samplesOf (commandEvents i s) = s.nextDraws (bytesSent i) := by
  obtain ⟨⟨evs, htrace, hsamples⟩, -⟩ := takesDraws_instrBody i s
  rw [instrBody_hostCommand hi, commandBody_eq hi, List.append_cancel_left_eq] at htrace
  rw [htrace, hsamples]

/-! ### The commands complete (42_display.md R151 to R156) -/

theorem exec_fresh (en : Bool) (br : Int) {s : State} (h : s.Fresh) :
    exec (.init en br) s = .next (afterCommand (.init en br) s) := by
  have henv : exec (.init en br) s = hostCommand true (commandBody (.init en br)) s := exec_hostCommand (.init en br) s
  rw [henv, hostCommand_fresh _ h, afterCommand]

/-- Only INIT writes a pin register (42_display.md R151). -/
theorem registerWrites_pins {i : Instr} (hn : isInit i = false) (s : State) : (registerWrites i s).pins = s.pins := by
  cases i with
  | init => cases hn
  | enable | setbr | digit | colon | clear | dataCmdFixed | addrSet | dispCtrl | segData => rfl

/-- The whole next state, the frames and the samples of a command of `n` bytes that a ready engine accepts. -/
theorem exec_ready_completes {i : Instr} (hi : IsHostCommand i) (hni : isInit i = false) {n count : Nat}
    (hbytes : bytesSent i = n) (hn : n ≤ 12) (hcount : n * 0x1000 = count) {s : State} (h : s.Ready) :
    exec i s = .next { registerWrites i s with
      result := BitVec.ofNat 16 (count + bitsToNat (s.nextDraws n)), trace := s.trace ++ commandEvents i s,
      draws := s.draws.drop n, drawCount := s.drawCount + n } ∧
    framesFrom s.pins (commandEvents i s) = commandFrames i s ∧ samplesOf (commandEvents i s) = s.nextDraws n := by
  subst hbytes
  have hpins : (registerWrites i s).pins = Pins.idle := (registerWrites_pins hni s).trans h.idle
  refine ⟨?_, framesFrom_commandEvents hi (.inr h.idle), samplesOf_commandEvents hi s⟩
  rw [exec_ready hi hni h, afterCommand_eq hi h.quiet (congrArg Pins.clkDir hpins), ← hpins,
    packResult_nextDraws hn hcount]

/-- Settles O18: a fresh engine accepts INIT, which makes the lines idle before its one frame. -/
theorem initCompletes : Obligations.InitCompletes := by
  intro s en br h
  have hframes := framesFrom_commandEvents (.init en br) (s := s) (.inl rfl)
  rw [commandFrames, dispCtrlByte_eq_ofNat, toNat_clampBr] at hframes
  refine ⟨cmdEvents (dispCtrlByte en (clampBr br)) (s.drawAt 0), ?_, hframes, samplesOf_cmdEvents _ _⟩
  rw [exec_fresh en br h, afterCommand_eq (.init en br) h.quiet rfl, bytesSent, packResult_nextDraws (by decide) rfl]
  rfl

/-- Settles O19: SEND_CFG with the stored brightness. -/
theorem enableCompletes : Obligations.EnableCompletes := by
  intro s on h
  obtain ⟨hexec, hframes, hsamples⟩ := exec_ready_completes (.enable on) rfl (n := 1) rfl (by decide) rfl h
  rw [commandFrames, dispCtrlByte_eq_ofNat] at hframes
  exact ⟨_, hexec, hframes, hsamples⟩

/-- Settles O20: SEND_CFG with the stored on bit, whose clamp is the operand's. -/
theorem setbrCompletes : Obligations.SetbrCompletes := by
  intro s br h
  obtain ⟨hexec, hframes, hsamples⟩ := exec_ready_completes (.setbr br) rfl (n := 1) rfl (by decide) rfl h
  rw [commandFrames, dispCtrlByte_eq_ofNat, toNat_clampBr] at hframes
  exact ⟨_, hexec, hframes, hsamples⟩

/-- Settles O21: WRITE_SEG of the byte that DIGIT renders, at the address of its position. -/
theorem digitCompletes : Obligations.DigitCompletes := by
  intro s pos d h
  obtain ⟨hexec, hframes, hsamples⟩ := exec_ready_completes (.digit pos d) rfl (n := 3) rfl (by decide) rfl h
  rw [commandFrames, segFrames, addressByteIsPositionModFour] at hframes
  exact ⟨_, hexec, hframes, hsamples⟩

/-- Settles O22: WRITE_SEG of the whole cache, after bit 7 took the operand. -/
theorem colonCompletes : Obligations.ColonCompletes := by
  intro s on h
  exact ⟨_, exec_ready_completes (.colon on) rfl (n := 3) rfl (by decide) rfl h⟩

/-- Settles O23: WRITE_SEG of a blank at each position, which writes no register but RESULT. -/
theorem clearCompletes : Obligations.ClearCompletes := by
  intro s h
  exact ⟨_, exec_ready_completes .clear rfl (n := 12) rfl (by decide) rfl h⟩

/-! ### Traffic (42_display.md R159) -/

/-- The events of SEND_CMD and WRITE_SEG, one more for each sample of 1 (40_transport.md R107, 41_protocol.md R135). -/
theorem length_cmdEvents (b : Byte) (a : Bool) :
    (cmdEvents b a).length = 62 + (samplesOf (cmdEvents b a)).count true := by
  rw [samplesOf_cmdEvents, (counts_cmdEvents b a).1]
  cases a <;> rfl

theorem length_segEvents (pos : Nat) (seg : Byte) (a b c : Bool) :
    (segEvents pos seg a b c).length = 175 + (samplesOf (segEvents pos seg a b c)).count true := by
  rw [samplesOf_segEvents, (counts_segEvents pos seg a b c).1]
  cases a <;> cases b <;> cases c <;> rfl

theorem length_clearEvents (d : Nat → Bool) :
    (clearEvents d).length = 700 + (samplesOf (clearEvents d)).count true := by
  simp only [clearEvents, List.length_append, length_segEvents, samplesOf_append, List.count_append]
  omega

theorem delaysOf_clearEvents (d : Nat → Bool) : delaysOf (clearEvents d) = 272 := by
  simp only [clearEvents, delaysOf_append, (counts_segEvents _ _ _ _ _).2]

/-- A row of the table of R159; the bytes sent are also the acknowledgement bits. -/
structure Traffic where
  frames : Nat
  bytes  : Nat
  delays : Nat
  events : Nat

/-- The table of R159, the events without the drive-lows; a wire byte is no command. -/
def trafficOf : Instr → Traffic
  | .init _ _ => ⟨1, 1, 24, 63⟩
  | .enable _ | .setbr _ => ⟨1, 1, 24, 62⟩
  | .digit _ _ | .colon _ => ⟨2, 3, 68, 175⟩
  | .clear => ⟨8, 12, 272, 700⟩
  | .dataCmdFixed | .addrSet _ | .dispCtrl _ _ | .segData _ => ⟨0, 0, 0, 0⟩

theorem counts_commandFrames {i : Instr} (hi : IsHostCommand i) (s : State) :
    (commandFrames i s).length = (trafficOf i).frames ∧ (commandFrames i s).flatten.length = (trafficOf i).bytes := by
  cases hi <;> exact ⟨rfl, rfl⟩

/-- INIT's first event is neither a delay nor a sample. -/
theorem delaysOf_configureLines (es : List WireEvent) : delaysOf (.configureLines :: es) = delaysOf es :=
  List.countP_cons_of_neg nofun

theorem samplesOf_configureLines (es : List WireEvent) : samplesOf (.configureLines :: es) = samplesOf es := rfl

theorem counts_commandEvents {i : Instr} (hi : IsHostCommand i) (s : State) :
    delaysOf (commandEvents i s) = (trafficOf i).delays ∧
      (commandEvents i s).length = (trafficOf i).events + (samplesOf (commandEvents i s)).count true := by
  cases hi with
  | init en br =>
    have hlen := length_cmdEvents (dispCtrlByte en (clampBr br)) (s.drawAt 0)
    have hdelays := (counts_cmdEvents (dispCtrlByte en (clampBr br)) (s.drawAt 0)).2
    simp only [commandEvents, trafficOf, delaysOf_configureLines, samplesOf_configureLines, List.length_cons]
    exact ⟨hdelays, by omega⟩
  | enable | setbr =>
    simp only [commandEvents, trafficOf]
    exact ⟨(counts_cmdEvents _ _).2, length_cmdEvents _ _⟩
  | digit | colon =>
    simp only [commandEvents, trafficOf]
    exact ⟨(counts_segEvents _ _ _ _ _).2, length_segEvents _ _ _ _ _⟩
  | clear =>
    simp only [commandEvents, trafficOf]
    exact ⟨delaysOf_clearEvents _, length_clearEvents _⟩

theorem bytesSent_eq_trafficOf {i : Instr} (hi : IsHostCommand i) : bytesSent i = (trafficOf i).bytes := by
  cases hi <;> rfl

/-- What R159 says of a command's outcome `t` and its events. -/
def HasTraffic (r : Traffic) (s t : State) (evs : List WireEvent) : Prop :=
  if t.fault = .noFault then
    (framesFrom s.pins evs).length = r.frames ∧ (framesFrom s.pins evs).flatten.length = r.bytes ∧
    (samplesOf evs).length = r.bytes ∧ t.result.extractLsb' 12 4 = BitVec.ofNat 4 r.bytes ∧
    delaysOf evs = r.delays ∧ minDuration evs = r.delays * Config.tSettle ∧
    evs.length = r.events + (samplesOf evs).count true
  else evs = []

theorem hasTraffic_afterCommand {i : Instr} (hi : IsHostCommand i) {s : State}
    (hp : isInit i = true ∨ s.pins = Pins.idle) (hf : s.fault = .noFault) :
    HasTraffic (trafficOf i) s (afterCommand i s) (commandEvents i s) := by
  have hfault : (afterCommand i s).fault = .noFault := by
    rw [afterCommand, commandBody_eq hi]
    exact (registerWrites_fault i _).trans hf
  have hacks : (commandBody i (accept s)).acks.length = bytesSent i := by
    rw [← instrBody_hostCommand hi, length_acks_instrBody]
  have hcount : (afterCommand i s).result.extractLsb' 12 4 = BitVec.ofNat 4 (trafficOf i).bytes := by
    rw [afterCommand, complete_result, packResult_count, hacks, bytesSent_eq_trafficOf hi]
  have hsamples : (samplesOf (commandEvents i s)).length = (trafficOf i).bytes := by
    rw [samplesOf_commandEvents hi, nextDraws_length, bytesSent_eq_trafficOf hi]
  obtain ⟨hframes, hbytes⟩ := counts_commandFrames hi s
  obtain ⟨hdelays, hevents⟩ := counts_commandEvents hi s
  rw [HasTraffic, if_pos hfault, framesFrom_commandEvents hi hp, minDuration, hdelays]
  exact ⟨hframes, hbytes, hsamples, hcount, rfl, rfl, hevents⟩

/-- The traffic of a command that a ready or a fresh engine answers: its row when it completes, none when it faults. -/
theorem hasTraffic_exec {i : Instr} (hi : IsHostCommand i) {s t : State} {evs : List WireEvent}
    (hs : s.Ready ∨ s.Fresh) (ht : exec i s = .next t) (htrace : t.trace = s.trace ++ evs) :
    HasTraffic (trafficOf i) s t evs := by
  cases execNext_of_exec ht with
  | raises _ hg =>
    have hfault : (raise _ s).fault ≠ .noFault := hg.ne_noFault
    rw [HasTraffic, if_neg hfault]
    exact List.self_eq_append_right.mp htrace
  | completes _ hf _ hd =>
    have hp : isInit i = true ∨ s.pins = Pins.idle := by
      obtain hs | hs := hs
      · exact .inr hs.idle
      · exact .inl (by simpa [hs.initDone] using hd)
    rw [instrBody_hostCommand hi] at htrace ⊢
    have hevs : commandEvents i s = evs := List.append_cancel_left ((trace_afterCommand hi s).symm.trans htrace)
    exact hevs ▸ hasTraffic_afterCommand hi hp hf
  | sends hn => exact absurd hi hn

/-- Settles O24: each clause is a command's row of the table. -/
theorem commandTrafficCounts : Obligations.CommandTrafficCounts := by
  intro s t i evs hs ht htrace
  refine ⟨?_, ?_, ?_, ?_, ?_, ?_⟩
  · rintro en br rfl
    exact hasTraffic_exec (.init en br) hs ht htrace
  · rintro on rfl
    exact hasTraffic_exec (.enable on) hs ht htrace
  · rintro br rfl
    exact hasTraffic_exec (.setbr br) hs ht htrace
  · rintro pos d rfl
    exact hasTraffic_exec (.digit pos d) hs ht htrace
  · rintro on rfl
    exact hasTraffic_exec (.colon on) hs ht htrace
  · rintro rfl
    exact hasTraffic_exec .clear hs ht htrace

/-! ### COLON and DIGIT at position 1 (42_display.md R158) -/

/-- The table has no colon bit (30_encoding.md R83), and a blank glyph has none. -/
theorem getLsbD_glyph {t : SegTable} (h : t.wf = true) (d : Nat) : (t.glyph d).getLsbD 7 = false := by
  have hall : ∀ e ∈ t.toList, e.getLsbD 7 = false := by
    simp only [SegTable.wf, Bool.and_eq_true, List.all_eq_true, Bool.not_eq_true'] at h
    exact h.2
  by_cases hd : d < 10
  · rw [SegTable.glyph, dif_pos hd]
    exact hall _ (by simp)
  · rw [SegTable.glyph, dif_neg hd]
    rfl

theorem withColon_of_getLsbD {g : Byte} (h : g.getLsbD 7 = false) (on : Bool) :
    withColon on g = if on then g ||| 0x80 else g := by
  revert on g; decide

/-- The bit that DIGIT keeps of a cache is the one COLON set in it. -/
theorem mask_withColon (on : Bool) (c : Byte) :
    withColon on c &&& Config.colonMask = if on then Config.colonMask else 0 := by
  revert on c; decide

theorem mergeColon_withColon {g : Byte} (h : g.getLsbD 7 = false) (on : Bool) (c : Byte) :
    mergeColon g (withColon on c) = withColon on g := by
  rw [mergeColon, mask_withColon, withColon_of_getLsbD h]
  cases on <;> simp [Config.colonMask]

theorem withColon_mergeColon (on : Bool) (g c : Byte) : withColon on (mergeColon g c) = withColon on g := by
  have hbit : c &&& Config.colonMask = 0 ∨ c &&& Config.colonMask = Config.colonMask := by revert c; decide
  obtain hbit | hbit := hbit
  · rw [mergeColon, hbit]
    revert on g; decide
  · rw [mergeColon, hbit]
    revert on g; decide

theorem segcache_afterCommand {i : Instr} (hi : IsHostCommand i) (s : State) :
    (afterCommand i s).segcache = (registerWrites i s).segcache := by
  rw [afterCommand, commandBody_eq hi, registerWrites_accept]
  rfl

theorem segTable_afterCommand {i : Instr} (hi : IsHostCommand i) (s : State) :
    (afterCommand i s).segTable = s.segTable := by
  rw [afterCommand, commandBody_eq hi]
  exact registerWrites_segTable i (accept s)

theorem SendsFrames.trans {fs gs : List (List Byte)} {s t u : State} (hst : SendsFrames fs s t)
    (htu : SendsFrames gs t u) : SendsFrames (fs ++ gs) s u := by
  obtain ⟨evs, ht, hw⟩ := hst
  obtain ⟨evs', hu, hw'⟩ := htu
  refine ⟨evs ++ evs', by rw [hu, ht, List.append_assoc], fun m hm => ?_⟩
  rw [watch_append, hw m hm, hw' _ (hm.withFrames _), List.append_assoc]

/-- The segment commands of position 1 send there the cache they leave (42_display.md R154, R155). -/
def SendsCache (i : Instr) : Prop := ∀ s, commandFrames i s = segFrames Config.colonPos (registerWrites i s).segcache

theorem sendsCache_colon (on : Bool) : SendsCache (.colon on) := fun _ => rfl

theorem sendsCache_digit (d : Nat) : SendsCache (.digit 1 d) := fun _ => rfl

/-- After two commands, the second of which sends its cache, that cache is the byte last sent to position 1. -/
theorem exists_exec_then_cache {i j : Instr} (hi : IsHostCommand i) (hj : IsHostCommand j) (hni : isInit i = false)
    (hnj : isInit j = false) (hsent : SendsCache j) {s : State} (h : s.Ready) {out : Byte}
    (hout : (registerWrites j (afterCommand i s)).segcache = out) :
    ∃ (t u : State) (evs : List WireEvent), exec i s = .next t ∧ exec j t = .next u ∧ u.trace = s.trace ++ evs ∧
      u.segcache = out ∧ lastSegment (framesFrom s.pins evs) 1 = some out := by
  have ht := ready_afterCommand hi h
  obtain ⟨evs, htrace, hframes⟩ :=
    ((sendsFrames_afterCommand hi s).trans (sendsFrames_afterCommand hj (afterCommand i s))).framesFrom_eq h.idle
  refine ⟨_, _, evs, exec_ready hi hni h, exec_ready hj hnj ht, htrace, ?_, ?_⟩
  · rw [segcache_afterCommand hj, hout]
  · rw [hframes, hsent, hout, lastSegment_append, lastSegment_segFrames]
    rfl

theorem segcache_colon_then_digit {s : State} (h : s.segTable.wf = true) (d : Nat) (on : Bool) :
    (registerWrites (.digit 1 d) (afterCommand (.colon on) s)).segcache = withColon on (s.segTable.glyph d) := by
  have hmerge : ∀ t, (registerWrites (.digit 1 d) t).segcache = mergeColon (t.segTable.glyph d) t.segcache :=
    fun _ => rfl
  have hcolon : (afterCommand (.colon on) s).segcache = withColon on s.segcache := segcache_afterCommand (.colon on) s
  rw [hmerge, hcolon, segTable_afterCommand (.colon on), mergeColon_withColon (getLsbD_glyph h d)]

theorem segcache_digit_then_colon (s : State) (d : Nat) (on : Bool) :
    (registerWrites (.colon on) (afterCommand (.digit 1 d) s)).segcache = withColon on (s.segTable.glyph d) := by
  have hcolon : ∀ t, (registerWrites (.colon on) t).segcache = withColon on t.segcache := fun _ => rfl
  have hmerge : (afterCommand (.digit 1 d) s).segcache = mergeColon (s.segTable.glyph d) s.segcache :=
    segcache_afterCommand (.digit 1 d) s
  rw [hcolon, hmerge, withColon_mergeColon]

/-- Settles O41: in either order the cache ends as the glyph with the operand's colon bit, which the second command
sends. -/
theorem colonAndDigitCommute : Obligations.ColonAndDigitCommute := by
  intro s d on h hwf
  have hout := withColon_of_getLsbD (getLsbD_glyph hwf d) on
  obtain ⟨a, a', evs, ha, ha', htrace, hcache, hlast⟩ :=
    exists_exec_then_cache (.colon on) (.digit 1 d) rfl rfl (sendsCache_digit d) h
      ((segcache_colon_then_digit hwf d on).trans hout)
  obtain ⟨b, b', evs', hb, hb', htrace', hcache', hlast'⟩ :=
    exists_exec_then_cache (.digit 1 d) (.colon on) rfl rfl (sendsCache_colon on) h
      ((segcache_digit_then_colon s d on).trans hout)
  exact ⟨a, a', b, b', evs, evs', ha, ha', htrace, hb, hb', htrace', hcache, hcache', hlast, hlast'⟩

end Sys2Proof.Machine

/-! PROOFS. The exceptions (60_exceptions.md): the checks on a written word in their order, a halted engine in both
models, a fault that changes nothing else, and what the acknowledgement draws can change. -/

namespace Sys2Proof.Machine

/-! ### The checks before decoding (60_exceptions.md R203) -/

theorem portGate_of_halted {s : State} (hf : s.fault ≠ .noFault) : portGate s = .halted := if_pos hf

theorem portGate_of_busy {s : State} (hf : s.fault = .noFault) (hb : s.busy = true) :
    portGate s = .raises .busy := by
  simp [portGate, hf, hb]

theorem portGate_of_not_busy {s : State} (hf : s.fault = .noFault) (hb : s.busy = false) : portGate s = .accepts := by
  simp [portGate, hf, hb]

/-- Where the checks before decoding do not accept, the checks after it are not reached. -/
theorem commandGate_of_portGate_ne {s : State} (h : portGate s ≠ .accepts) (isInit : Bool) :
    commandGate isInit s = portGate s := by
  unfold commandGate
  split
  · next hg => exact absurd hg h
  · rfl

theorem gate_run_of_ne {g : Gate} (h : g ≠ .accepts) (s accepted : State) : g.run s accepted = g.run s s := by
  cases g with
  | halted | raises => rfl
  | accepts => exact absurd rfl h

/-- Legal or not, a word that the checks before decoding do not accept is not looked at. -/
theorem writeCmd_of_portGate_ne {s : State} (h : portGate s ≠ .accepts) (cw : Word) :
    writeCmd cw s = (portGate s).run s s := by
  cases hd : decodeCommand cw with
  | ok i =>
    rw [writeCmd_of_decode hd, exec_hostCommand (isHostCommand_of_decodeCommand hd), commandGate_of_portGate_ne h,
      gate_run_of_ne h]
  | error e => rw [writeCmd_of_error hd, illegalWord, gate_run_of_ne h]

theorem microWrite_of_portGate_ne {s : State} (h : portGate s ≠ .accepts) (cw : Word) :
    microWrite cw s = (portGate s).run s s := by
  cases hd : decodeCommand cw with
  | ok i =>
    simp only [microWrite, hd, commandGate_of_portGate_ne h]
    exact gate_run_of_ne h _ _
  | error e => rw [microWrite, hd, illegalWord, gate_run_of_ne h]

theorem writes_of_halted {s : State} (hf : s.fault ≠ .noFault) (cw : Word) :
    writeCmd cw s = .fault .halted ∧ microWrite cw s = .fault .halted := by
  have hg := portGate_of_halted hf
  rw [writeCmd_of_portGate_ne (by simp [hg]), microWrite_of_portGate_ne (by simp [hg]), hg]
  exact ⟨rfl, rfl⟩

theorem writes_of_busy {s : State} (hf : s.fault = .noFault) (hb : s.busy = true) (cw : Word) :
    writeCmd cw s = .next (raise .busy s) ∧ microWrite cw s = .next (raise .busy s) := by
  have hg := portGate_of_busy hf hb
  rw [writeCmd_of_portGate_ne (by simp [hg]), microWrite_of_portGate_ne (by simp [hg]), hg]
  exact ⟨rfl, rfl⟩

/-! ### The checks after decoding -/

theorem writeCmd_of_illegal {cw : Word} {e : DecodeReject} (hd : decodeCommand cw = .error e) {s : State}
    (hf : s.fault = .noFault) (hb : s.busy = false) : writeCmd cw s = .next (raise .illegal s) := by
  rw [writeCmd_of_error hd, illegalWord, portGate_of_not_busy hf hb]
  rfl

/-- The checks that look at the command, where those before decoding accept. -/
theorem commandGate_of_not_busy {s : State} (hf : s.fault = .noFault) (hb : s.busy = false) (isInit : Bool) :
    commandGate isInit s =
      if !isInit && !s.initDone then .raises .uninit else if isInit && s.initDone then .raises .reinit
      else .accepts := by
  rw [commandGate, portGate_of_not_busy hf hb]

/-- A later command before INIT (60_exceptions.md R201). -/
theorem exec_uninit {i : Instr} (hi : IsHostCommand i) (hn : isInit i = false) {s : State} (hf : s.fault = .noFault)
    (hb : s.busy = false) (hd : s.initDone = false) : exec i s = .next (raise .uninit s) := by
  rw [exec_hostCommand hi, commandGate_of_not_busy hf hb, hn, hd]
  rfl

/-- INIT after INIT (60_exceptions.md R201). -/
theorem exec_reinit {i : Instr} (hi : IsHostCommand i) (hn : isInit i = true) {s : State} (hf : s.fault = .noFault)
    (hb : s.busy = false) (hd : s.initDone = true) : exec i s = .next (raise .reinit s) := by
  rw [exec_hostCommand hi, commandGate_of_not_busy hf hb, hn, hd]
  rfl

/-- A command that comes at its time passes every check. -/
theorem exec_accepted {i : Instr} (hi : IsHostCommand i) {s : State} (hf : s.fault = .noFault) (hb : s.busy = false)
    (hd : s.initDone = !isInit i) : exec i s = .next (afterCommand i s) := by
  rw [exec_hostCommand hi, commandGate_of_not_busy hf hb, hd]
  cases isInit i <;> rfl

/-- Settles O26: a fresh engine is neither halted nor busy, and INIT is not done. -/
theorem earlyCommandsRaiseUninit : Obligations.EarlyCommandsRaiseUninit := by
  intro s h
  have huninit {i : Instr} (hi : IsHostCommand i) (hn : isInit i = false) : exec i s = .next (raise .uninit s) :=
    exec_uninit hi hn h.fault h.quiet.busy h.initDone
  exact ⟨fun on => huninit (.enable on) rfl, fun br => huninit (.setbr br) rfl,
    fun pos d => huninit (.digit pos d) rfl, fun on => huninit (.colon on) rfl, huninit .clear rfl⟩

/-- Settles O27: the last check of INIT. -/
theorem secondInitRaisesReinit : Obligations.SecondInitRaisesReinit :=
  fun _ en br hf hb hd => exec_reinit (.init en br) rfl hf hb hd

/-! ### The order of the checks -/

/-- The six patterns say which words decode (30_encoding.md R72, R74). -/
theorem any_matches_iff {cw : Word} :
    commandRows.any (fun r => r.matches cw) = true ↔ ∃ i, decodeCommand cw = .ok i := by
  rw [List.any_eq_true, (commandsAreTheSixPatterns.2 cw).1]

theorem exists_error_of_any_matches_eq_false {cw : Word} (h : commandRows.any (fun r => r.matches cw) = false) :
    ∃ e, decodeCommand cw = .error e := by
  cases hd : decodeCommand cw with
  | ok i => exact absurd (any_matches_iff.mpr ⟨i, hd⟩) (by simp [h])
  | error e => exact ⟨e, rfl⟩

/-- OP tells INIT from the later commands (30_encoding.md R72). -/
theorem isInit_eq_of_decodeCommand {cw : Word} {i : Instr} (h : decodeCommand cw = .ok i) :
    isInit i = decide (cw.toNat / 4096 = 1) := by
  rw [← toNat_fieldOp]
  cases commandFields_of_decodeCommand h with
  | init hop | enable hop | setbr hop | digit hop | colon hop | clear hop => rw [hop]; rfl

theorem fault_afterCommand {i : Instr} (hi : IsHostCommand i) (s : State) : (afterCommand i s).fault = s.fault := by
  rw [afterCommand, commandBody_eq hi]
  exact registerWrites_fault i (accept s)

theorem initDone_afterCommand {i : Instr} (hi : IsHostCommand i) (s : State) :
    (afterCommand i s).initDone = (isInit i || s.initDone) := by
  rw [afterCommand, commandBody_eq hi]
  cases hi <;> rfl

/-- Settles O25: the checks before decoding look at no word; those after it look at INIT_DONE and at OP. -/
theorem checksRunInOrder : Obligations.ChecksRunInOrder := by
  intro s cw legal op
  refine ⟨fun hf => (writes_of_halted hf cw).1, fun hf hb => (writes_of_busy hf hb cw).1, fun hf hb hl => ?_,
    fun hf hb hl hop hd => ?_, fun hf hb hl hop hd => ?_, fun hf hb hl hop => ?_⟩
  · obtain ⟨e, he⟩ := exists_error_of_any_matches_eq_false hl
    exact writeCmd_of_illegal he hf hb
  all_goals
    obtain ⟨i, hi⟩ := any_matches_iff.mp hl
    have hhost := isHostCommand_of_decodeCommand hi
    have hinit : isInit i = decide (op = 1) := isInit_eq_of_decodeCommand hi
    rw [writeCmd_of_decode hi]
  · exact exec_uninit hhost (by simp [hinit, hop]) hf hb hd
  · exact exec_reinit hhost (by simp [hinit, hop]) hf hb hd
  · have hd : s.initDone = !isInit i := by simp [hinit, hop]
    refine ⟨_, exec_accepted hhost hf hb hd, (fault_afterCommand hhost s).trans hf, rfl, ?_⟩
    rw [initDone_afterCommand hhost, hd, Bool.or_not_self]

/-! ### A halted engine (60_exceptions.md R204) -/

theorem exec_of_halted {s : State} (hf : s.fault ≠ .noFault) (i : Instr) : exec i s = .fault .halted := by
  have hg := portGate_of_halted hf
  obtain hi | ⟨-, hseq⟩ := isHostCommand_or_sequencer i s
  · rw [exec_hostCommand hi, commandGate_of_portGate_ne (by simp [hg]), hg]
    rfl
  · rw [hseq]
    exact if_pos hf

/-- The engine's own slot, where the host has no more moves. -/
theorem silent_of_halted {s : State} (hf : s.fault ≠ .noFault) (hin : s.inputs = []) :
    step s = .fault .halted ∧ microStep s = .fault .halted := by
  rw [step_silent hin, microStep, hin]
  exact ⟨if_pos hf, if_pos hf⟩

theorem write_of_halted {s : State} (hf : s.fault ≠ .noFault) {cw : Word} {k : List Input}
    (hin : s.inputs = .write cw :: k) : step s = .fault .halted ∧ microStep s = .fault .halted := by
  rw [step_write hin, microStep_write hin]
  exact writes_of_halted (s := { s with inputs := k }) hf cw

/-- A move that a halted engine answers with a next state is a reset, or it changes at most what the host has read. -/
theorem takeInput_of_halted {write : Word → State → Host.Outcome State Fault Refusal}
    {idleMove : State → Host.Outcome State Fault Refusal} {m : Input} {s t : State}
    (hwrite : ∀ cw, write cw s = .fault .halted) (hidle : idleMove s = .next s)
    (h : takeInput write idleMove m s = .next t) : m = .reset ∨ ∃ r, t = { s with reads := r } := by
  cases m with
  | write cw => cases (hwrite cw).symm.trans h
  | readStatus | readResult => cases h; exact .inr ⟨_, rfl⟩
  | idle => cases hidle.symm.trans h; exact .inr ⟨s.reads, rfl⟩
  | reset => exact .inl rfl

/-- Everything a step or a micro-step of a halted engine can do: it takes a move of the host or the platform, which is a
reset, or which changes at most what the host has read. -/
theorem next_of_halted {s t : State} (hf : s.fault ≠ .noFault) (h : step s = .next t ∨ microStep s = .next t) :
    ∃ m ms, s.inputs = m :: ms ∧ (m = .reset ∨ ∃ r, t = { s with inputs := ms, reads := r }) := by
  cases hin : s.inputs with
  | nil =>
    obtain ⟨hs, hm⟩ := silent_of_halted hf hin
    obtain h | h := h
    · cases hs.symm.trans h
    · cases hm.symm.trans h
  | cons m ms =>
    have hf' : { s with inputs := ms }.fault ≠ .noFault := hf
    refine ⟨m, ms, rfl, ?_⟩
    rw [step_eq_takeInput hin, microStep_eq_takeInput hin] at h
    obtain h | h := h
    · exact takeInput_of_halted (fun cw => (writes_of_halted hf' cw).1) (if_pos hf') h
    · exact takeInput_of_halted (fun cw => (writes_of_halted hf' cw).2) (if_pos hf') h

/-- Settles O28: every check starts with FAULT, and the moves that pass it by are the reads, the idle slot and reset. -/
theorem haltedEngineMakesNoStep : Obligations.HaltedEngineMakesNoStep := by
  intro s hf
  refine ⟨exec_of_halted hf, silent_of_halted hf, fun cw k => write_of_halted hf,
    fun k hin => ⟨_, ((portReadsHaveNoEffect s k).1 hin).1, rfl⟩,
    fun k hin => ⟨_, ((portReadsHaveNoEffect s k).2 hin).1, rfl⟩, fun t h hreset => ?_,
    fun k hin => ⟨_, step_eq_takeInput hin, rfl⟩, beq_eq_false_iff_ne.mpr hf⟩
  obtain ⟨m, ms, hin, rfl | ⟨r, rfl⟩⟩ := next_of_halted hf h
  · exact absurd hin (hreset ms)
  · rfl

/-- Whatever micro-steps a halted engine makes, short of a reset, change the host's side alone. -/
theorem microRun_of_halted {s : State} (hf : s.fault ≠ .noFault) (hreset : ∀ m ∈ s.inputs, m ≠ .reset) {n : Nat}
    {t : State} (h : microRun n s = .next t) : ∃ k r, t = { s with inputs := k, reads := r } := by
  induction n generalizing s with
  | zero => cases h; exact ⟨_, _, rfl⟩
  | succ n ih =>
    rw [microRun] at h
    split at h
    case h_1 u hu =>
      obtain ⟨m, ms, hin, rfl | ⟨r, rfl⟩⟩ := next_of_halted hf (.inr hu)
      · exact absurd rfl (hreset .reset (hin ▸ List.mem_cons_self))
      · have hreset' : ∀ m ∈ ms, m ≠ .reset := fun m hm => hreset m (hin ▸ List.mem_cons_of_mem _ hm)
        exact ih (s := { s with inputs := ms, reads := r }) hf hreset' h
    case h_2 | h_3 => cases h

/-- Settles O50: F_BUSY is raised before the word is decoded, and halts the engine with the command in progress. -/
theorem writeWhileBusyFreezesTheCommand : Obligations.WriteWhileBusyFreezesTheCommand := by
  intro s cw k hb hf hin
  obtain ⟨hwrite, hmicro⟩ := writes_of_busy (s := { s with inputs := k }) hf hb cw
  refine ⟨(microStep_write hin).trans hmicro, (step_write hin).trans hwrite, fun n t h hreset => ?_⟩
  have hhalted : { s with inputs := k, fault := FaultCode.busy }.fault ≠ .noFault := nofun
  obtain ⟨k', r, rfl⟩ := microRun_of_halted hhalted hreset h
  exact ⟨rfl, rfl, hb, rfl⟩

/-! ### A fault changes nothing else (60_exceptions.md R202) -/

theorem fault_instrBody (i : Instr) (s : State) : (instrBody i s).fault = s.fault :=
  (sameRegisters_instrBody i s).fault.trans (registerWrites_fault i s)

/-- Settles O38: what passes its checks keeps FAULT, so a change of FAULT is a raise. -/
theorem faultEntryChangesNothingElse : Obligations.FaultEntryChangesNothingElse := by
  intro i s t h hne
  cases execNext_of_exec h with
  | raises hf => exact ⟨rfl, hf⟩
  | completes => exact absurd (fault_instrBody i (accept s)) hne
  | sends => exact absurd (fault_instrBody i s) hne

/-! ### The same command with other draws (60_exceptions.md R205) -/

/-- `s` with other acknowledgement draws to come. -/
def State.withDraws (s : State) (ds : List Bool) (n : Nat) : State := { s with draws := ds, drawCount := n }

theorem registerWrites_withDraws (i : Instr) (s : State) (ds : List Bool) (n : Nat) :
    registerWrites i (s.withDraws ds n) = (registerWrites i s).withDraws ds n := by
  cases i <;> rfl

theorem commandFrames_withDraws (i : Instr) (s : State) (ds : List Bool) (n : Nat) :
    commandFrames i (s.withDraws ds n) = commandFrames i s := by
  cases i <;> rfl

theorem quiet_withDraws {s : State} (h : s.Quiet) (ds : List Bool) (n : Nat) : (s.withDraws ds n).Quiet :=
  ⟨h.busy, h.txQueue, h.uops, h.segNext, h.acks⟩

/-- The event is neither a sample nor the drive-low that a sample of 1 causes (40_transport.md R107). -/
def apartFromAcks : WireEvent → Bool
  | .sample _ => false
  | .driveDioLow => false
  | _ => true

/-- XFER but for the sample and the drive-low (40_transport.md R113). -/
theorem filter_xferEvents (v : Byte) (a : Bool) :
    (xferEvents v a).filter apartFromAcks = dataEvents v ++ ackOpenEvents ++ ackCloseEvents := by
  have hbit : ∀ b, ∀ e ∈ bitEvents b, apartFromAcks e = true := by decide
  have hdata : (dataEvents v).filter apartFromAcks = dataEvents v := List.filter_eq_self.mpr fun e he => by
    obtain ⟨b, -, hb⟩ := List.mem_flatMap.mp he
    exact hbit b e hb
  rw [xferEvents, List.filter_append, List.filter_append, hdata, List.append_assoc, List.append_assoc]
  cases a <;> rfl

/-- Apart from the acknowledgements, a command's events do not depend on the draws. -/
theorem filter_commandEvents_withDraws (i : Instr) (s : State) (ds : List Bool) (n : Nat) :
    (commandEvents i (s.withDraws ds n)).filter apartFromAcks = (commandEvents i s).filter apartFromAcks := by
  cases i with
  | init => simp only [commandEvents, cmdEvents, List.filter_cons, List.filter_append, filter_xferEvents]
  | enable | setbr =>
    simp only [commandEvents, cmdEvents, List.filter_append, filter_xferEvents]
    rfl
  | digit | colon =>
    simp only [commandEvents, segEvents, cmdEvents, List.filter_append, filter_xferEvents]
    rfl
  | clear => simp only [commandEvents, clearEvents, segEvents, cmdEvents, List.filter_append, filter_xferEvents]
  | dataCmdFixed | addrSet | dispCtrl | segData => rfl

/-! ### A drive-low for each sample of 1 (40_transport.md R107) -/

/-- The events drive DIO low as often as they sample a 1. -/
def DrivesLowOnOnes (es : List WireEvent) : Prop := es.count .driveDioLow = (samplesOf es).count true

theorem DrivesLowOnOnes.append {es fs : List WireEvent} (he : DrivesLowOnOnes es) (hf : DrivesLowOnOnes fs) :
    DrivesLowOnOnes (es ++ fs) := by
  rw [DrivesLowOnOnes, List.count_append, samplesOf_append, List.count_append, he, hf]

theorem drivesLowOnOnes_startEvents : DrivesLowOnOnes startEvents := rfl

theorem drivesLowOnOnes_stopEvents : DrivesLowOnOnes stopEvents := rfl

theorem drivesLowOnOnes_xferEvents (v : Byte) (a : Bool) : DrivesLowOnOnes (xferEvents v a) := by
  rw [DrivesLowOnOnes, count_driveDioLow_xferEvents, samplesOf_xferEvents]
  cases a <;> rfl

theorem drivesLowOnOnes_cmdEvents (b : Byte) (a : Bool) : DrivesLowOnOnes (cmdEvents b a) :=
  (drivesLowOnOnes_startEvents.append (drivesLowOnOnes_xferEvents b a)).append drivesLowOnOnes_stopEvents

theorem drivesLowOnOnes_segEvents (pos : Nat) (seg : Byte) (a b c : Bool) :
    DrivesLowOnOnes (segEvents pos seg a b c) :=
  (drivesLowOnOnes_cmdEvents dataCmdByte a).append
    (((drivesLowOnOnes_startEvents.append (drivesLowOnOnes_xferEvents (addrByte pos) b)).append
      (drivesLowOnOnes_xferEvents seg c)).append drivesLowOnOnes_stopEvents)

theorem drivesLowOnOnes_commandEvents (i : Instr) (s : State) : DrivesLowOnOnes (commandEvents i s) := by
  cases i with
  | init =>
    have hconf : DrivesLowOnOnes [.configureLines] := rfl
    exact hconf.append (drivesLowOnOnes_cmdEvents _ _)
  | enable | setbr => exact drivesLowOnOnes_cmdEvents _ _
  | digit | colon => exact drivesLowOnOnes_segEvents _ _ _ _ _
  | clear =>
    exact (((drivesLowOnOnes_segEvents _ _ _ _ _).append (drivesLowOnOnes_segEvents _ _ _ _ _)).append
      (drivesLowOnOnes_segEvents _ _ _ _ _)).append (drivesLowOnOnes_segEvents _ _ _ _ _)
  | dataCmdFixed | addrSet | dispCtrl | segData => rfl

/-! ### Draws of 0 -/

theorem nextDraws_eq_replicate {s : State} {n : Nat} (h : ∀ k < n, s.drawAt k = false) :
    s.nextDraws n = List.replicate n false := by
  rw [State.nextDraws, List.eq_replicate_iff]
  simpa using h

theorem bitsToNat_replicate_false (n : Nat) : bitsToNat (List.replicate n false) = 0 := by
  induction n with
  | zero => rfl
  | succ n ih => rw [List.replicate_succ, bitsToNat, ih]; rfl

/-- With draws of 0 a command never drives DIO low for an acknowledgement. -/
theorem driveDioLow_not_mem_commandEvents {i : Instr} (hi : IsHostCommand i) {s : State}
    (h : ∀ k < bytesSent i, s.drawAt k = false) : .driveDioLow ∉ commandEvents i s := by
  rw [← List.count_eq_zero, drivesLowOnOnes_commandEvents, samplesOf_commandEvents hi, nextDraws_eq_replicate h,
    List.count_replicate]
  rfl

/-- With draws of 0 the acknowledgement bits of RESULT are 0. -/
theorem packResult_bits_of_draws_zero {s : State} {n : Nat} (h : ∀ k < n, s.drawAt k = false) :
    (packResult (s.nextDraws n)).extractLsb' 0 12 = 0#12 := by
  rw [packResult_bits, nextDraws_eq_replicate h, bitsToNat_replicate_false]

/-! ### The two runs -/

/-- An accepted command finds CLK an output, or it is INIT and makes it one (42_display.md R151). -/
theorem clkDir_registerWrites {i : Instr} {s : State} (hp : isInit i = true ∨ s.pins = Pins.idle) :
    (registerWrites i s).pins.clkDir = .output := by
  cases hn : isInit i with
  | true =>
    obtain ⟨en, br, rfl⟩ := exists_init_of_isInit hn
    rfl
  | false => rw [registerWrites_pins hn, hp.resolve_left (by simp [hn])]; rfl

theorem bytesSent_le (i : Instr) : bytesSent i ≤ 12 := by
  have := bytesSent_cases i
  omega

/-- What R205 says of the outcomes `t` and `t'` of one write in `s` and in `s'`, which differ in their draws. -/
def AlikeButForDraws (s s' t t' : State) : Prop :=
  ∃ evs evs', t.trace = s.trace ++ evs ∧ t'.trace = s.trace ++ evs' ∧
    framesFrom s.pins evs = framesFrom s.pins evs' ∧ evs.filter apartFromAcks = evs'.filter apartFromAcks ∧
    t' = { t with result := t'.result, trace := t'.trace, draws := t'.draws, drawCount := t'.drawCount } ∧
    ((∀ k < 12, s'.drawAt k = false) → evs' ≠ [] →
      t'.fault = .noFault ∧ .driveDioLow ∉ evs' ∧ t'.result.extractLsb' 0 12 = 0#12)

/-- A refused command sends nothing. -/
theorem alikeButForDraws_raise (code : FaultCode) (s : State) (ds : List Bool) (n : Nat) :
    AlikeButForDraws s (s.withDraws ds n) (raise code s) (raise code (s.withDraws ds n)) :=
  ⟨[], [], (List.append_nil _).symm, (List.append_nil _).symm, rfl, rfl, rfl, fun _ hne => absurd rfl hne⟩

theorem alikeButForDraws_afterCommand {i : Instr} (hi : IsHostCommand i) {s : State} (h : s.Inv)
    (hf : s.fault = .noFault) (hd : s.initDone = !isInit i) (ds : List Bool) (n : Nat) :
    AlikeButForDraws s (s.withDraws ds n) (afterCommand i s) (afterCommand i (s.withDraws ds n)) := by
  have hp : isInit i = true ∨ s.pins = Pins.idle := by
    cases hn : isInit i with
    | true => exact .inl rfl
    | false => exact .inr (h.idle (by simp [hd, hn]))
  have ht := afterCommand_eq hi h.quiet (clkDir_registerWrites hp)
  have ht' := afterCommand_eq hi (quiet_withDraws h.quiet ds n) (clkDir_registerWrites (s := s.withDraws ds n) hp)
  refine ⟨_, _, trace_afterCommand hi s, trace_afterCommand hi (s.withDraws ds n), ?_,
    (filter_commandEvents_withDraws i s ds n).symm, ?_, fun hzero _ => ⟨?_, ?_, ?_⟩⟩
  · exact (framesFrom_commandEvents hi hp).trans ((commandFrames_withDraws i s ds n).symm.trans
      (framesFrom_commandEvents hi (s := s.withDraws ds n) hp).symm)
  · rw [ht', ht, registerWrites_withDraws]
    rfl
  · exact (fault_afterCommand hi _).trans hf
  · exact driveDioLow_not_mem_commandEvents hi fun k hk => hzero k (hk.trans_le (bytesSent_le i))
  · rw [ht']
    exact packResult_bits_of_draws_zero fun k hk => hzero k (hk.trans_le (bytesSent_le i))

/-- One write in two states that differ in their draws: the checks do not look at the draws. -/
theorem exists_writeCmd_alike {s : State} (h : s.Inv) (hf : s.fault = .noFault) (ds : List Bool) (n : Nat) (cw : Word) :
    ∃ t t', writeCmd cw s = .next t ∧ writeCmd cw (s.withDraws ds n) = .next t' ∧
      AlikeButForDraws s (s.withDraws ds n) t t' := by
  have hb := h.quiet.busy
  cases hd : decodeCommand cw with
  | error e =>
    exact ⟨_, _, writeCmd_of_illegal hd hf hb, writeCmd_of_illegal hd hf hb, alikeButForDraws_raise _ s ds n⟩
  | ok i =>
    have hi := isHostCommand_of_decodeCommand hd
    rw [writeCmd_of_decode hd, writeCmd_of_decode hd]
    by_cases hinit : s.initDone = !isInit i
    · exact ⟨_, _, exec_accepted hi hf hb hinit, exec_accepted hi hf hb hinit,
        alikeButForDraws_afterCommand hi h hf hinit ds n⟩
    · have hsame : s.initDone = isInit i := by simpa using hinit
      cases hn : isInit i with
      | false =>
        rw [hn] at hsame
        exact ⟨_, _, exec_uninit hi hn hf hb hsame, exec_uninit hi hn hf hb hsame, alikeButForDraws_raise _ s ds n⟩
      | true =>
        rw [hn] at hsame
        exact ⟨_, _, exec_reinit hi hn hf hb hsame, exec_reinit hi hn hf hb hsame, alikeButForDraws_raise _ s ds n⟩

/-- Settles O40: refused alike or accepted alike, and then the draws show only where a command polls. -/
theorem drawsChangeOnlyTheAcknowledgements : Obligations.DrawsChangeOnlyTheAcknowledgements := by
  intro s ds n cw h hf s' others
  obtain ⟨t, t', ht, ht', evs, evs', halike⟩ := exists_writeCmd_alike h hf ds n cw
  have hothers : others = apartFromAcks := by
    funext e
    cases e <;> rfl
  rw [hothers]
  exact ⟨t, t', evs, evs', ht, ht', halike⟩

end Sys2Proof.Machine

/-! PROOFS. Reset and hazards (70_reset_and_hazards.md): the state after a reset, a reset in any state, and what becomes
of the colon latch SEGCACHE at an aliased position, at CLEAR and at the first commands after a reset. -/

namespace Sys2Proof.Machine

/-! ### Reset (70_reset_and_hazards.md R230, R234) -/

theorem status_platformReset (s : State) : (platformReset s).status = 0xFF00 := by
  have hfields : (platformReset s).status = State.reset.status := rfl
  rw [hfields]
  decide

theorem quiet_platformReset (s : State) : (platformReset s).Quiet := ⟨rfl, rfl, rfl, rfl, rfl⟩

theorem fresh_platformReset (s : State) : (platformReset s).Fresh := ⟨quiet_platformReset s, rfl, rfl⟩

/-- The state after reset is the one a reset makes of it. -/
theorem platformReset_reset : platformReset State.reset = State.reset := rfl

/-- Settles O1: the values stand in `State.reset`; STATUS and the table's two entries are read off it. -/
theorem resetStateHoldsSpecValues : Obligations.ResetStateHoldsSpecValues :=
  ⟨rfl, rfl, rfl, rfl, rfl, rfl, status_platformReset State.reset, rfl, rfl⟩

/-- Settles O2: in both models a reset is the same move, `platformReset`, and it looks at no check. -/
theorem resetAbandonsAnything : Obligations.ResetAbandonsAnything := by
  intro s k h
  have hstep : step s = .next (platformReset { s with inputs := k }) := step_eq_takeInput h
  have hmicro : microStep s = .next (platformReset { s with inputs := k }) := microStep_eq_takeInput h
  exact ⟨_, hstep, hmicro, rfl, rfl, rfl, rfl, rfl, rfl, status_platformReset _, rfl, quiet_platformReset _, rfl⟩

/-- Settles O3: every reset meets the invariant where the table is well formed, as the default table is. -/
theorem resetMeetsInvariant : Obligations.ResetMeetsInvariant := by
  have hwf : State.reset.segTable.wf = true := by decide
  have hinv : (platformReset State.reset).Inv := inv_platformReset hwf
  rwa [platformReset_reset] at hinv

/-! ### The colon latch and what is sent to position 1 -/

/-- The two frames of a segment command whose position is 1 on the wire (20_memory.md R52). -/
theorem segFrames_of_mod_four {pos : Nat} (h : pos % 4 = 1) (seg : Byte) :
    segFrames pos seg = [[0x44#8], [0xC1#8, seg]] := by
  rw [segFrames, addressByteIsPositionModFour, h]
  rfl

theorem segcache_afterColon (on : Bool) (s : State) :
    (afterCommand (.colon on) s).segcache = withColon on s.segcache :=
  segcache_afterCommand (.colon on) s

theorem segcache_afterDigit (pos digit : Nat) (s : State) :
    (afterCommand (.digit pos digit) s).segcache = digitCache pos digit s :=
  segcache_afterCommand (.digit pos digit) s

theorem segcache_afterClear (s : State) : (afterCommand .clear s).segcache = s.segcache :=
  segcache_afterCommand .clear s

theorem segcache_afterInit (en : Bool) (br : Int) (s : State) :
    (afterCommand (.init en br) s).segcache = s.segcache :=
  segcache_afterCommand (.init en br) s

/-- COLON sends the cache with its own bit 7. -/
theorem commandFrames_colon (on : Bool) (s : State) :
    commandFrames (.colon on) s = [[0x44#8], [0xC1#8, withColon on s.segcache]] :=
  segFrames_of_mod_four rfl _

/-- COLON changes bit 7 alone (42_display.md R155). -/
theorem withColon_bits (on : Bool) (c : Byte) :
    (withColon on c).extractLsb' 0 7 = c.extractLsb' 0 7 ∧ (withColon on c).getLsbD 7 = on := by
  revert on c; decide

/-! ### DIGIT at an aliased position (R238) -/

/-- Position 1 on the wire, but not the raw position that the colon belongs to (42_display.md R154). -/
def AliasesColonPos (pos : Nat) : Prop := pos % 4 = 1 ∧ pos ≠ Config.colonPos

theorem aliasesColonPos_of_cases {pos : Nat} (h : pos = 5 ∨ pos = 9 ∨ pos = 13) : AliasesColonPos pos := by
  obtain rfl | rfl | rfl := h <;> exact ⟨rfl, by decide⟩

theorem AliasesColonPos.commandFrames_digit {pos : Nat} (h : AliasesColonPos pos) (d : Nat) (s : State) :
    commandFrames (.digit pos d) s = [[0x44#8], [0xC1#8, s.segTable.glyph d]] := by
  rw [commandFrames, segFrames_of_mod_four h.1, digitByte, if_neg h.2]

theorem AliasesColonPos.segcache_eq {pos : Nat} (h : AliasesColonPos pos) (d : Nat) (s : State) :
    (afterCommand (.digit pos d) s).segcache = s.segcache := by
  rw [segcache_afterDigit, digitCache, if_neg h.2]

/-- Settles O42: the byte sent is the bare glyph, which has no colon bit, and COLON renders the cache it left alone. -/
theorem aliasedDigitDropsColon : Obligations.AliasedDigitDropsColon := by
  intro s pos d on h hwf hpos
  have halias := aliasesColonPos_of_cases hpos
  have ht := ready_afterCommand (.digit pos d) h
  have hdigit : framesFrom s.pins (commandEvents (.digit pos d) s) = [[0x44#8], [0xC1#8, s.segTable.glyph d]] :=
    (framesFrom_commandEvents (.digit pos d) (.inr h.idle)).trans (halias.commandFrames_digit d s)
  have hcache := halias.segcache_eq d s
  have hcolon := (framesFrom_commandEvents (.colon on) (.inr ht.idle)).trans (commandFrames_colon on _)
  rw [hcache] at hcolon
  obtain ⟨hlow, hbit⟩ := withColon_bits on s.segcache
  exact ⟨_, _, _, _, _, exec_ready (.digit pos d) rfl h, trace_afterCommand (.digit pos d) s, hcache, hdigit,
    getLsbD_glyph hwf d, exec_ready (.colon on) rfl ht, trace_afterCommand (.colon on) _, _, hcolon, hlow, hbit⟩

/-! ### CLEAR and BLANK 1 (R239) -/

/-- After COLON the byte last sent to position 1 is the cache with COLON's bit 7. -/
theorem lastSegment_colon (on : Bool) {s : State} (h : s.Ready) :
    lastSegment (framesFrom s.pins (commandEvents (.colon on) s)) 1 = some (withColon on s.segcache) := by
  rw [framesFrom_commandEvents (.colon on) (.inr h.idle), commandFrames, lastSegment_segFrames]
  rfl

theorem lastSegment_clear {s : State} (h : s.Ready) :
    lastSegment (framesFrom s.pins (commandEvents .clear s)) 1 = some 0x00 := by
  rw [framesFrom_commandEvents .clear (.inr h.idle)]
  exact lastSegment_append_clear (by decide) [] s

theorem withColon_eq_ite (on : Bool) (c : Byte) : withColon on c = if on then c ||| 0x80 else c &&& 0x7F := rfl

/-- A blank glyph leaves in the cache the colon bit alone (42_display.md R154). -/
theorem segcache_afterBlank (s : State) :
    (afterCommand (.digit 1 10) s).segcache.extractLsb' 0 7 = 0#7 := by
  have hmerge : ∀ c : Byte, (mergeColon 0x00 c).extractLsb' 0 7 = 0#7 := by decide
  rw [segcache_afterDigit]
  exact hmerge s.segcache

/-- Settles O43: COLON sends the cache, which CLEAR does not write and BLANK 1 writes. -/
theorem clearLeavesTheLatch : Obligations.ClearLeavesTheLatch := by
  intro s on h
  constructor
  · have ht := ready_afterCommand .clear h
    have hcolon := lastSegment_colon on ht
    rw [segcache_afterClear, withColon_eq_ite] at hcolon
    exact ⟨_, _, _, _, exec_ready .clear rfl h, trace_afterCommand .clear s, segcache_afterClear s,
      lastSegment_clear h, exec_ready (.colon on) rfl ht, trace_afterCommand (.colon on) _, hcolon⟩
  · have hv := ready_afterCommand (.digit 1 10) h
    have hblank := segcache_afterBlank s
    obtain ⟨hlow, -⟩ := withColon_bits on (afterCommand (.digit 1 10) s).segcache
    exact ⟨_, _, _, _, exec_ready (.digit 1 10) rfl h, hblank, exec_ready (.colon on) rfl hv,
      trace_afterCommand (.colon on) _, lastSegment_colon on hv, hlow.trans hblank⟩

/-! ### The first commands after a reset (R240) -/

/-- INIT leaves the engine ready, from whatever pins (42_display.md R151). -/
theorem ready_afterInit (en : Bool) (br : Int) {s : State} (h : s.Fresh) : (afterCommand (.init en br) s).Ready := by
  obtain ⟨⟨-, htx, hu, hn, -⟩, -, hf⟩ := h
  rw [afterCommand, commandBody, sendCfg_eq]
  exact ⟨⟨rfl, htx, hu, hn, rfl⟩, rfl, hf, rfl⟩

/-- DIGIT at position 1 on a cache of all ones sends the glyph with the colon. -/
theorem commandFrames_digit_one {s : State} (h : s.segcache = 0xFF) (d : Nat) :
    commandFrames (.digit 1 d) s = [[0x44#8], [0xC1#8, s.segTable.glyph d ||| 0x80]] := by
  rw [commandFrames, segFrames_of_mod_four rfl, digitByte, if_pos (show 1 = Config.colonPos from rfl), mergeColon, h]
  rfl

/-- Settles O44: INIT leaves SEGCACHE at its reset value `0xFF`, from which both commands render. -/
theorem colonIsSetAfterReset : Obligations.ColonIsSetAfterReset := by
  intro s en br d _ glyph
  have hfresh := fresh_platformReset s
  have ht := ready_afterInit en br hfresh
  have hcache : (afterCommand (.init en br) (platformReset s)).segcache = 0xFF :=
    segcache_afterInit en br (platformReset s)
  have htable : (afterCommand (.init en br) (platformReset s)).segTable = s.segTable :=
    segTable_afterCommand (.init en br) (platformReset s)
  have hdigit := (framesFrom_commandEvents (.digit 1 d) (.inr ht.idle)).trans (commandFrames_digit_one hcache d)
  have hcolon := (framesFrom_commandEvents (.colon false) (.inr ht.idle)).trans (commandFrames_colon false _)
  rw [htable] at hdigit
  rw [hcache] at hcolon
  exact ⟨_, _, _, _, _, exec_fresh en br hfresh, exec_ready (.digit 1 d) rfl ht, trace_afterCommand (.digit 1 d) _,
    hdigit, exec_ready (.colon false) rfl ht, trace_afterCommand (.colon false) _, hcolon⟩

end Sys2Proof.Machine
